-- ==== Sys2Proof/Config.lean ====
section
/-! DEFINITION. What the spec leaves to an implementation (00_scope.md R6): constants with no body, so that a
claim about the model holds for every value of them. -/
namespace Sys2Proof

/-- `PIN_WRITE_ORDER` (R6, R66, U14): at the n-th open choice, which of the pin writes still to make comes next.
A free value (log 5). -/
opaque Config.pinWriteOrder : Nat → Nat

/-- `BIND_ORDER` (R6, R77 (e), U14): at the n-th open choice, which of the allowed binding calls comes next.
A free value (log 6). -/
opaque Config.bindOrder : Nat → Nat

/-- Whether binding stops at the n-th open choice once a binding call has failed (U11). A free value (log 6). -/
opaque Config.bindStop : Nat → Bool

/-- `STRICT_RESULT` (R6, R106): whether an operation reports its condition to the host (log 14). -/
opaque Config.strictResult : Bool

/-- One less than `T_UNIT`, so that `T_UNIT` is positive whatever this is (R6, R68; log 24). -/
opaque Config.tUnitPred : Nat

/-- `T_UNIT` (R6): the positive lower bound of a hold. -/
def Config.tUnit : Nat := Config.tUnitPred + 1

/-- The open choices of one step. -/
structure Choice where
  /-- Which of the pin writes still to make comes next, modulo their number. -/
  pinWrite : Nat
  /-- Which of the binding calls allowed now comes next, modulo their number. -/
  bindCall : Nat
  /-- Whether a binding that has failed ends now. -/
  stop : Bool
deriving DecidableEq, Repr

/-- The free values taken at the n-th open choice. -/
def Config.choiceAt (n : Nat) : Choice :=
  { pinWrite := Config.pinWriteOrder n, bindCall := Config.bindOrder n, stop := Config.bindStop n }

end Sys2Proof
end

