-- ==== Sys2Proof/Word.lean ====
section
/-! DEFINITION. The word type of the block and the widths of its parameters (00_scope.md R5, R7). -/
namespace Sys2Proof

/-- The instruction word in the numeric view of R7: RS = bit 9, R/W = bit 8, DB n = bit n. -/
abbrev Word := BitVec 10

/-- The 8-bit code that `WriteData` carries (R5 `DATA_BITS`, R63). -/
abbrev Byte := BitVec 8

/-- The address field of `SetCGRAMAddress` (R5 `CGRAM_ADDR_BITS`, R60). -/
abbrev CgramAddress := BitVec 6

/-- The address field of `SetDDRAMAddress` (R5 `DDRAM_ADDR_BITS`, R61). -/
abbrev DdramAddress := BitVec 7

end Sys2Proof
end

