-- ==== Sys2Proof/Syntax.lean ====
section
/-! DEFINITION. The instructions (one constructor per row of the opcode table), the encoder calls as a host writes
them, the pin roles, and the host's calls on the block. -/
namespace Sys2Proof

/-- The eleven instructions (30_encoding.md R45, R49). Parameters are typed to their width, so that an out-of-range
argument cannot be written down (40_encoder_commands.md R53, D18). -/
inductive Instr where
  /-- R54. -/
  | clearDisplay
  /-- R55. -/
  | returnHome
  /-- R56. -/
  | entryModeSet (increment shiftDisplay : Bool)
  /-- R57. -/
  | displayOnOffControl (displayOn cursorOn blinkOn : Bool)
  /-- R58. -/
  | cursorDisplayShift (shiftDisplay shiftRight : Bool)
  /-- R59. -/
  | functionSet (is8Bit twoLines font5x10 : Bool)
  /-- R60. -/
  | setCGRAMAddress (address : CgramAddress)
  /-- R61. -/
  | setDDRAMAddress (address : DdramAddress)
  /-- R62. -/
  | readBusyFlagAndAddress
  /-- R63. -/
  | writeData (data : Byte)
  /-- R64. -/
  | readData
deriving DecidableEq, Repr

/-- A call of an encoder function as a host with wide numbers writes it (R49: `Name(parameters)`, numerals of any
size). `Command.wf` says whether its arguments fit. -/
inductive Command where
  | clearDisplay
  | returnHome
  | entryModeSet (increment shiftDisplay : Bool)
  | displayOnOffControl (displayOn cursorOn blinkOn : Bool)
  | cursorDisplayShift (shiftDisplay shiftRight : Bool)
  | functionSet (is8Bit twoLines font5x10 : Bool)
  | setCGRAMAddress (address : Nat)
  | setDDRAMAddress (address : Nat)
  | readBusyFlagAndAddress
  | writeData (data : Nat)
  | readData
deriving DecidableEq, Repr

/-- Why a bit sequence is no instruction. -/
inductive DecodeError where
  /-- Its length is not 10 (R47). -/
  | malformedLength (length : Nat)
  /-- No row of R45 accepts it (R46). -/
  | nonCanonical (word : Word)
deriving DecidableEq, Repr

/-- The eleven logical pins (10_state.md R20): RS, R/W, Enable, D7 to D0. -/
inductive Role where
  | rs | rw | e | d7 | d6 | d5 | d4 | d3 | d2 | d1 | d0
deriving DecidableEq, Repr

/-- One value for each of the eleven roles. -/
structure PerRole (α : Type) where
  rs : α
  rw : α
  e : α
  d7 : α
  d6 : α
  d5 : α
  d4 : α
  d3 : α
  d2 : α
  d1 : α
  d0 : α
deriving DecidableEq, Repr

/-- A numeric pin identifier, passed unchanged to the GPIO collaborator (R35, D12; log 7). -/
abbrev PinId := Nat

/-- A pin handle, as the GPIO collaborator yields it (R113; log 7). -/
abbrev Handle := Nat

/-- What the GPIO collaborator answers for one role during `init` (`BIND_RESULT`, R113). -/
inductive BindAnswer where
  /-- `Open` yields the handle and `SetOutput` succeeds. -/
  | bound (h : Handle)
  /-- `Open` fails. -/
  | openFails
  /-- `Open` succeeds and `SetOutput` fails. -/
  | setOutputFails
deriving DecidableEq, Repr

/-- What a host may ask of the block: the sixteen operations of R51, the internal primitive `Send` (R65), and an
encoder function (R52). -/
inductive Call where
  /-- `init(ids)` (R77), with the answers the GPIO collaborator will give it. -/
  | init (ids : PerRole PinId) (gpio : PerRole BindAnswer)
  | clearDisplay
  | setCursorPosition (row column : Nat)
  | write (text : List Byte)
  | writeLine (text : List Byte)
  | turnDisplayOn
  | turnDisplayOff
  | turnCursorOn
  | turnCursorOff
  | startCursorBlinking
  | stopCursorBlinking
  | switchTo8BitMode
  | switchToDoubleLines
  | switchToSingleLines
  | switchTo5x8Font
  | switchTo5x10Font
  /-- `Send(w)` on a bit sequence of any length (D8). -/
  | send (bits : List Bool)
  /-- An encoder function, evaluated for its word alone. -/
  | encode (c : Command)
deriving DecidableEq, Repr

/-- One call as the host presents it. `waits = true` is the host of R114, which presents it when the block is Idle;
`waits = false` presents it in the next step, also while an operation runs (for an operation the hazard of R121; log 12). -/
structure Request where
  call : Call
  waits : Bool
deriving DecidableEq, Repr

end Sys2Proof
end

