-- ==== Sys2Proof/WellFormed.lean ====
section
/-! DEFINITION. The checks on what a host writes down: the length of a word (30_encoding.md R40, R47) and the range of
an encoder argument (40_encoder_commands.md R53, R125). -/
namespace Sys2Proof

/-- R40: a word is exactly ten bits. -/
def wordLengthOk (bits : List Bool) : Bool := bits.length == 10

/-- R53: an address of 64 or more is outside `SetCGRAMAddress`. -/
def cgramAddressInRange (a : Nat) : Bool := decide (a < 64)

/-- R53: an address of 128 or more is outside `SetDDRAMAddress`. -/
def ddramAddressInRange (a : Nat) : Bool := decide (a < 128)

/-- R53: a data value of 256 or more is outside `WriteData`. -/
def dataInRange (d : Nat) : Bool := decide (d < 256)

/-- Every argument of the call fits its field (R53). -/
def Command.wf : Command → Bool
  | .clearDisplay => true
  | .returnHome => true
  | .entryModeSet _ _ => true
  | .displayOnOffControl _ _ _ => true
  | .cursorDisplayShift _ _ => true
  | .functionSet _ _ _ => true
  | .setCGRAMAddress a => cgramAddressInRange a
  | .setDDRAMAddress a => ddramAddressInRange a
  | .readBusyFlagAndAddress => true
  | .writeData d => dataInRange d
  | .readData => true

/-- The call a typed instruction stands for. -/
def Instr.toCommand : Instr → Command
  | .clearDisplay => .clearDisplay
  | .returnHome => .returnHome
  | .entryModeSet i s => .entryModeSet i s
  | .displayOnOffControl d c b => .displayOnOffControl d c b
  | .cursorDisplayShift s r => .cursorDisplayShift s r
  | .functionSet l n f => .functionSet l n f
  | .setCGRAMAddress a => .setCGRAMAddress a.toNat
  | .setDDRAMAddress a => .setDDRAMAddress a.toNat
  | .readBusyFlagAndAddress => .readBusyFlagAndAddress
  | .writeData d => .writeData d.toNat
  | .readData => .readData

/-- A typed instruction is well formed when its call is; its types make it so (`Instr.wf_of_types` in Laws). -/
def Instr.wf (i : Instr) : Bool := i.toCommand.wf

/-- A call the typed encoder cannot be given is refused; every other call is well formed (`Send` takes a word of any
length, R65; rows and columns are clamped, R104). -/
def Call.wf : Call → Bool
  | .encode c => c.wf
  | _ => true

end Sys2Proof
end

