-- ==== Sys2Proof/Decode.lean ====
section
/-! DEFINITION. The two views of a word (00_scope.md R7), the opcode map (30_encoding.md R45) as a decoder, and after
it the eleven encoder functions (40_encoder_commands.md R54 to R64). The source defines no decoder; this one is R45's
table read from right to left (N15; log 21). -/
namespace Sys2Proof

/-- R8, R10: 1 for true, 0 for false, as a word. -/
def b2i (p : Bool) : Word := if p then 1#10 else 0#10

/-- R7: the sequence view, RS first, DB0 last. -/
def seqOfWord (w : Word) : List Bool :=
  [w.getLsbD 9, w.getLsbD 8, w.getLsbD 7, w.getLsbD 6, w.getLsbD 5,
   w.getLsbD 4, w.getLsbD 3, w.getLsbD 2, w.getLsbD 1, w.getLsbD 0]

/-- R7: the numeric view of a sequence of exactly ten bits; none for any other length. -/
def wordOfSeq? : List Bool → Option Word
  | [rs, rw, d7, d6, d5, d4, d3, d2, d1, d0] =>
    some (b2i rs <<< 9 ||| b2i rw <<< 8 ||| b2i d7 <<< 7 ||| b2i d6 <<< 6 ||| b2i d5 <<< 5 |||
      b2i d4 <<< 4 ||| b2i d3 <<< 3 ||| b2i d2 <<< 2 ||| b2i d1 <<< 1 ||| b2i d0)
  | _ => none

/-- One row of the opcode map. -/
structure OpcodeRow where
  mnemonic : String
  pattern : Word
  mask : Word
  build : Word → Instr

/-- R45: "A word `w` is instruction X exactly when `(w & mask) = match`." -/
def OpcodeRow.accepts (r : OpcodeRow) (w : Word) : Bool := w &&& r.mask == r.pattern

/-- R45: the opcode map, in its order. -/
def opcodeMap : List OpcodeRow :=
  [⟨"ClearDisplay", 0x001#10, 0x3FF#10, fun _ => .clearDisplay⟩,
   ⟨"ReturnHome", 0x003#10, 0x3FF#10, fun _ => .returnHome⟩,
   ⟨"EntryModeSet", 0x004#10, 0x3FC#10, fun w => .entryModeSet (w.getLsbD 1) (w.getLsbD 0)⟩,
   ⟨"DisplayOnOffControl", 0x008#10, 0x3F8#10,
     fun w => .displayOnOffControl (w.getLsbD 2) (w.getLsbD 1) (w.getLsbD 0)⟩,
   ⟨"CursorDisplayShift", 0x010#10, 0x3F3#10, fun w => .cursorDisplayShift (w.getLsbD 3) (w.getLsbD 2)⟩,
   ⟨"FunctionSet", 0x020#10, 0x3E3#10,
     fun w => .functionSet (w.getLsbD 4) (w.getLsbD 3) (w.getLsbD 2)⟩,
   ⟨"SetCGRAMAddress", 0x040#10, 0x3C0#10, fun w => .setCGRAMAddress (w.setWidth 6)⟩,
   ⟨"SetDDRAMAddress", 0x080#10, 0x380#10, fun w => .setDDRAMAddress (w.setWidth 7)⟩,
   ⟨"ReadBusyFlagAndAddress", 0x100#10, 0x3FF#10, fun _ => .readBusyFlagAndAddress⟩,
   ⟨"WriteData", 0x200#10, 0x300#10, fun w => .writeData (w.setWidth 8)⟩,
   ⟨"ReadData", 0x300#10, 0x3FF#10, fun _ => .readData⟩]

/-- R45: the instruction of a word, none for the 548 words of R46. -/
def decodeWord (w : Word) : Option Instr :=
  (opcodeMap.find? (fun r => r.accepts w)).map (fun r => r.build w)

/-- The decoder on any bit sequence: an instruction, or the reason why there is none. -/
def decodeBits (bits : List Bool) : Except DecodeError Instr :=
  match wordOfSeq? bits with
  | none => .error (.malformedLength bits.length)
  | some w =>
    match decodeWord w with
    | none => .error (.nonCanonical w)
    | some i => .ok i

/-- The bit sequence that a table word stands for. A value below 1024 is a word of ten bits (zeros above it are the
padding to whole bytes); a larger one has more than ten bits and is the sequence of all `nbits` bits (log 22). -/
def tableSeq (nbits w : Nat) : List Bool :=
  if w % 2 ^ nbits < 1024 then seqOfWord (BitVec.ofNat 10 (w % 2 ^ nbits))
  else ((List.range nbits).map (fun k => w.testBit k)).reverse

/-- The instruction this decoder reads from a word numbered as the opcode table numbers it. -/
def decodeTableWord (nbits w : Nat) : Option Instr :=
  match decodeBits (tableSeq nbits w) with
  | .ok i => some i
  | .error _ => none

/-! ### The encoder functions -/

/-- R54: "Fixed word, all bits 0 except DB0=1." -/
def encodeClearDisplay : Word := 0x001#10

/-- R55: "Fixed, DB1=DB0=1". -/
def encodeReturnHome : Word := 0x003#10

/-- R56: "DB2 fixed 1; caller bits at DB1 (increment), DB0 (shift)." -/
def encodeEntryModeSet (increment shiftDisplay : Bool) : Word :=
  0x004#10 ||| (b2i increment <<< 1) ||| b2i shiftDisplay

/-- R57: "DB3 fixed 1; caller bits at DB2, DB1, DB0 respectively." -/
def encodeDisplayOnOffControl (displayOn cursorOn blinkOn : Bool) : Word :=
  0x008#10 ||| (b2i displayOn <<< 2) ||| (b2i cursorOn <<< 1) ||| b2i blinkOn

/-- R58: "DB4 fixed 1; caller bits at DB3, DB2." -/
def encodeCursorDisplayShift (shiftDisplay shiftRight : Bool) : Word :=
  0x010#10 ||| (b2i shiftDisplay <<< 3) ||| (b2i shiftRight <<< 2)

/-- R59: "DB5 fixed 1; caller bits at DB4, DB3, DB2." -/
def encodeFunctionSet (is8Bit twoLines font5x10 : Bool) : Word :=
  0x020#10 ||| (b2i is8Bit <<< 4) ||| (b2i twoLines <<< 3) ||| (b2i font5x10 <<< 2)

/-- R60: "DB6 fixed 1; 6 low-order address bits follow." -/
def encodeSetCGRAMAddress (address : CgramAddress) : Word := 0x040#10 ||| address.setWidth 10

/-- R61: "DB7 fixed 1; 7 low-order address bits follow". -/
def encodeSetDDRAMAddress (address : DdramAddress) : Word := 0x080#10 ||| address.setWidth 10

/-- R62: "RS=0, R/W=1, data bits ignored (set 0 ...)". -/
def encodeReadBusyFlagAndAddress : Word := 0x100#10

/-- R63: "RS=1, R/W=0, data bits = the 8 bits of the byte to write". -/
def encodeWriteData (data : Byte) : Word := 0x200#10 ||| data.setWidth 10

/-- R64: "RS=1, R/W=1, data bits ignored"; they are 0 (R44). -/
def encodeReadData : Word := 0x300#10

/-- The word of an instruction (R52). -/
def encode : Instr → Word
  | .clearDisplay => encodeClearDisplay
  | .returnHome => encodeReturnHome
  | .entryModeSet i s => encodeEntryModeSet i s
  | .displayOnOffControl d c b => encodeDisplayOnOffControl d c b
  | .cursorDisplayShift s r => encodeCursorDisplayShift s r
  | .functionSet l n f => encodeFunctionSet l n f
  | .setCGRAMAddress a => encodeSetCGRAMAddress a
  | .setDDRAMAddress a => encodeSetDDRAMAddress a
  | .readBusyFlagAndAddress => encodeReadBusyFlagAndAddress
  | .writeData d => encodeWriteData d
  | .readData => encodeReadData

/-- The typed instruction of a call whose arguments fit; none where one does not (R53: "must refuse them and must not
truncate, saturate or wrap"). -/
def Command.narrow : Command → Option Instr
  | .clearDisplay => some .clearDisplay
  | .returnHome => some .returnHome
  | .entryModeSet i s => some (.entryModeSet i s)
  | .displayOnOffControl d c b => some (.displayOnOffControl d c b)
  | .cursorDisplayShift s r => some (.cursorDisplayShift s r)
  | .functionSet l n f => some (.functionSet l n f)
  | .setCGRAMAddress a => if cgramAddressInRange a then some (.setCGRAMAddress (BitVec.ofNat 6 a)) else none
  | .setDDRAMAddress a => if ddramAddressInRange a then some (.setDDRAMAddress (BitVec.ofNat 7 a)) else none
  | .readBusyFlagAndAddress => some .readBusyFlagAndAddress
  | .writeData d => if dataInRange d then some (.writeData (BitVec.ofNat 8 d)) else none
  | .readData => some .readData

end Sys2Proof
end

