-- ==== Sys2Proof/Machine/State.lean ====
section
/-! DEFINITION. The state of the block (10_state.md R11), what a call may answer its host, why a step can stop, and
the state after reset (10_state.md R27). -/
namespace Sys2Proof.Machine

/-- The level last written to a pin (R21): `unknown` until the first write. -/
inductive Level where
  | unknown
  | low
  | high
deriving DecidableEq, Repr

/-- One call the block makes on an outside interface (00_scope.md R9). -/
inductive Event where
  /-- `Open(role, id)`. -/
  | openPin (r : Role) (id : PinId)
  /-- `SetOutput(role)`. -/
  | setOutput (r : Role)
  /-- `Write(role, v)`. -/
  | write (r : Role) (v : Bool)
  /-- `Hold`: suspend for at least one time unit. -/
  | hold
deriving DecidableEq, Repr

/-- Step 1 of a running `init` (R77): the roles not yet opened, the roles opened and not yet set to output, and
whether a call has failed. -/
structure BindJob where
  ids : PerRole PinId
  gpio : PerRole BindAnswer
  toOpen : List Role
  toSet : List Role
  failed : Bool
deriving DecidableEq, Repr

/-- What the sequencer still has to do (R22). -/
inductive Task where
  /-- Step 1 of `init`: the bindings still to make. -/
  | bindPins (j : BindJob)
  /-- The pin phase of a transaction of `w` (R66): the roles in `left` are still to be written, in any order. -/
  | pins (w : Word) (left : List Role)
  /-- `PinWrite(r, v)` at its place in a fixed order. -/
  | write (r : Role) (v : Bool)
  /-- `WaitTick()`. -/
  | hold
  /-- Step 3 of `init`: "Mark configured." -/
  | markConfigured
deriving DecidableEq, Repr

/-- The configuration register (R13 to R18, D28): 1 is true. -/
structure Cfg where
  displayOn : Bool
  cursorOn : Bool
  cursorBlink : Bool
  /-- true = 8-bit. -/
  bitWidth : Bool
  /-- true = double. -/
  lineCount : Bool
  /-- true = 5x10. -/
  font : Bool
deriving DecidableEq, Repr

/-- What a returned call told the host. -/
inductive Answer where
  /-- Nothing (R70; `STRICT_RESULT` false). -/
  | silent
  /-- R106, `STRICT_RESULT` true. -/
  | ok
  /-- R106, `STRICT_RESULT` true: the Unconfigured no-op. -/
  | notConfigured
  /-- R106, `STRICT_RESULT` true: the no-op of a word whose length is not 10. -/
  | invalidInstructionLength
  /-- R78: `fail init`, the one failure the block reports. -/
  | initFailed
deriving DecidableEq, Repr

/-- Why the machine stops with a fault. -/
inductive Fault where
  /-- R115, D29: the call out `ev` never returns, so the operation in progress never completes. A stuck state, not
  something the block detects. Raised by `callOut` when `hang` has run out. Safe: nothing is claimed of what follows. -/
  | callNeverReturns (ev : Event)
deriving DecidableEq, Repr

/-- Why the machine gives no meaning. -/
inductive Refusal where
  /-- `exec` has no meaning for the instruction yet. Raised by no arm of this model. Safe. -/
  | notModelled (mnemonic : String)
  /-- R121, D19, U4: an operation presented while another one runs ("it has no meaning"). Raised by `whenIdle`, so by
  every meaning and operation used while `phase` is not Idle. Safe. -/
  | operationWhileRunning
  /-- R77 (d), D14, U3: `init` in Configured ("A model must refuse it"). Raised by `opInit`. Safe. -/
  | initWhileConfigured
  /-- R53, D18, U1: an encoder argument wider than its field. Raised by `opEncode`. Safe. -/
  | encoderArgumentOutOfRange
deriving DecidableEq, Repr

/-- The state of the block, and below it the model's own fields. -/
structure State where
  /-- R12: false = Unconfigured, true = Configured. -/
  configured : Bool
  /-- R13 to R18. -/
  cfg : Cfg
  /-- R20: none = `unbound`. -/
  bind : PerRole (Option Handle)
  /-- R21. -/
  pin : PerRole Level
  /-- R22: the tasks still to run, empty = Idle. -/
  phase : List Task
  /-- R9 (the model's own): the event trace so far, oldest first. -/
  trace : List Event
  /-- The model's own: what the last returned call answered; none while a call runs and before the first returns. -/
  answer : Option Answer
  /-- R52 (the model's own): the word the last encoder function returned; none before the first (log 29). -/
  encoded : Option Word
  /-- R24 (the model's own): the requests the host has still to present. -/
  program : List Request
  /-- R115 (the model's own): some k = the (k+1)-th call out from now never returns; none = every one returns. -/
  hang : Option Nat
  /-- R6 (the model's own): how many open choices have been taken. -/
  choices : Nat
deriving DecidableEq, Repr

/-- The same value for each role. -/
def everyRole {α : Type} (a : α) : PerRole α := ⟨a, a, a, a, a, a, a, a, a, a, a⟩

/-- R27: display on, cursor on, blink off, 8-bit, double, 5x8. -/
def Cfg.reset : Cfg :=
  { displayOn := true, cursorOn := true, cursorBlink := false, bitWidth := true, lineCount := true, font := false }

/-- R27, R119: the state after reset, that is, when the controller is created (R118). No call and no
encoder function has returned, the host presents nothing, every call out returns and no choice has been taken (logs 4, 5, 8, 14, 29). -/
def State.reset : State :=
  { configured := false, cfg := Cfg.reset, bind := everyRole none, pin := everyRole .unknown, phase := [],
    trace := [], answer := none, encoded := none, program := [], hang := none, choices := 0 }

end Sys2Proof.Machine
end

