-- ==== Sys2Proof/Machine/Flags.lean ====
section
/-! DEFINITION. The words the configuration flags feed (42_controller_operations.md R79, R80) and the condition a call
reports (60_exceptions.md R106). -/
namespace Sys2Proof.Machine

/-- R79: the function-set word of the width, line and font flags. -/
def textConfigWord (cfg : Cfg) : Word := encodeFunctionSet cfg.bitWidth cfg.lineCount cfg.font

/-- R80: the on/off-control word of the display, cursor and blink flags. -/
def displayConfigWord (cfg : Cfg) : Word := encodeDisplayOnOffControl cfg.displayOn cfg.cursorOn cfg.cursorBlink

/-- R106: what the host is told of a condition: itself when results are strict, nothing otherwise. -/
def reportUnder (strict : Bool) (a : Answer) : Answer := if strict then a else .silent

/-- R106 for this block's `STRICT_RESULT`. -/
def report (a : Answer) : Answer := reportUnder Config.strictResult a

end Sys2Proof.Machine
end

