-- ==== Sys2Proof/Machine/Operands.lean ====
section
/-! DEFINITION. Reading and writing the entry of one role, which word bit a role carries (30_encoding.md R41), and the
operand arithmetic of the cursor (42_controller_operations.md R82, R97). -/
namespace Sys2Proof

/-- The entry of a role. -/
def PerRole.get {α : Type} (p : PerRole α) : Role → α
  | .rs => p.rs
  | .rw => p.rw
  | .e => p.e
  | .d7 => p.d7
  | .d6 => p.d6
  | .d5 => p.d5
  | .d4 => p.d4
  | .d3 => p.d3
  | .d2 => p.d2
  | .d1 => p.d1
  | .d0 => p.d0

/-- The same entries but for one role. -/
def PerRole.set {α : Type} (p : PerRole α) (r : Role) (a : α) : PerRole α :=
  match r with
  | .rs => { p with rs := a }
  | .rw => { p with rw := a }
  | .e => { p with e := a }
  | .d7 => { p with d7 := a }
  | .d6 => { p with d6 := a }
  | .d5 => { p with d5 := a }
  | .d4 => { p with d4 := a }
  | .d3 => { p with d3 := a }
  | .d2 => { p with d2 := a }
  | .d1 => { p with d1 := a }
  | .d0 => { p with d0 := a }

namespace Machine

/-- R66: the ten roles of the pin phase, each once. -/
def wordRoles : List Role := [.rs, .rw, .d7, .d6, .d5, .d4, .d3, .d2, .d1, .d0]

/-- R20: all eleven roles. -/
def allRoles : List Role := [.rs, .rw, .e, .d7, .d6, .d5, .d4, .d3, .d2, .d1, .d0]

/-- R41, R66: `bit(w, RS) = w[9]`, `bit(w, RW) = w[8]`, `bit(w, D<n>) = w[n]`. Enable carries no word bit (R41) and is
never among the roles of a pin phase. -/
def wordBit (w : Word) : Role → Bool
  | .rs => w.getLsbD 9
  | .rw => w.getLsbD 8
  | .d7 => w.getLsbD 7
  | .d6 => w.getLsbD 6
  | .d5 => w.getLsbD 5
  | .d4 => w.getLsbD 4
  | .d3 => w.getLsbD 3
  | .d2 => w.getLsbD 2
  | .d1 => w.getLsbD 1
  | .d0 => w.getLsbD 0
  | .e => false

/-- R8, D3: bit 1 is level high, bit 0 is level low. -/
def levelOf (v : Bool) : Level := if v then .high else .low

/-- R5: `LINE_STRIDE`, decimal 40. -/
def lineStride : Nat := 40

/-- R5: `ROW_MAX`. -/
def rowMax : Nat := 1

/-- R5: `COL_MAX`, 40 inclusive (C3). -/
def colMax : Nat := 40

/-- R82: single-line forcing first, then the clamp. -/
def clampRow (cfg : Cfg) (row : Nat) : Nat := min (if cfg.lineCount then row else 0) rowMax

/-- R82: "Clamp `column` to at most 40". -/
def clampColumn (column : Nat) : Nat := min column colMax

/-- R82: `40*r + c`, after the clamps. -/
def cursorAddress (cfg : Cfg) (row column : Nat) : Nat := lineStride * clampRow cfg row + clampColumn column

end Machine
end Sys2Proof
end

