-- ==== Sys2Proof/Machine/Ops.lean ====
section
/-! DEFINITION. The shared operations: a pin write, a hold, the bus transaction, the silent no-op, the failure of
`init`, and `Send` (41_bus_transaction.md R65 to R68; 60_exceptions.md R100). The block takes no exception and returns
from none (R109, R110): what stands in their place is `silentNoOp` and `failInit`. -/
namespace Sys2Proof.Machine

/-- What one step, meaning or operation answers. -/
abbrev Result := Host.Outcome State Fault Refusal

/-! ### Calls out of the block -/

/-- A call out that has returned is in the trace, and one fewer returns before the one that hangs (R9, R115). -/
def record (ev : Event) (s : State) : State :=
  { s with trace := s.trace ++ [ev], hang := s.hang.map Nat.pred }

/-- R115: a call out that never returns stops the machine; any other is recorded, and `f` goes on from it. -/
def callOut (ev : Event) (s : State) (f : State → State) : Result :=
  if s.hang = some 0 then .fault (.callNeverReturns ev) else .next (f (record ev s))

/-- R21: the level of a pin after `PinWrite(r, v)`. -/
def setPin (r : Role) (v : Bool) (s : State) : State := { s with pin := s.pin.set r (levelOf v) }

/-- One open choice has been taken. -/
def tookChoice (s : State) : State := { s with choices := s.choices + 1 }

/-- The k-th element of a list, modulo its length, and the rest of the list. -/
def pick {α : Type} (k : Nat) (l : List α) : Option (α × List α) :=
  match l[k % l.length]? with
  | none => none
  | some a => some (a, l.eraseIdx (k % l.length))

/-! ### The phase -/

/-- The call that ran has returned (R71): the block is Idle and the host has its answer. -/
def returned (a : Answer) (s : State) : State := { s with phase := [], answer := some a }

/-- The tasks that are left: none of them, and the call returns. -/
def continueWith (ts : List Task) (s : State) : State :=
  match ts with
  | [] => returned (report .ok) s
  | _ :: _ => { s with phase := ts }

/-- R67: the six events of the strobe, in this order. -/
def strobe : List Task := [.write .e false, .hold, .write .e true, .hold, .write .e false, .hold]

/-- R65 to R67: one bus transaction. -/
def transaction (w : Word) : List Task := .pins w wordRoles :: strobe

/-- The transactions of some words, one after another (R36). -/
def transactions (ws : List Word) : List Task := ws.flatMap transaction

/-- A call that sends some words starts; one that sends none returns at once. -/
def startWords (ws : List Word) (s : State) : State :=
  match ws with
  | [] => returned (report .ok) s
  | w :: rest => { s with phase := transactions (w :: rest), answer := none }

/-! ### The conditions of 60_exceptions.md -/

/-- R100 to R102, R109: nothing changes and no event is emitted; the host is told the condition if results are strict. -/
def silentNoOp (a : Answer) (s : State) : State := { s with answer := some (report a) }

/-- R78: every role unbound, `init` fails, the block is Idle and Unconfigured as before. -/
def failInit (s : State) : State := returned .initFailed { s with bind := everyRole none }

/-- R121: an operation presented while a call runs is refused. -/
def whenIdle (s : State) (k : Result) : Result :=
  if s.phase = [] then k else .refused .operationWhileRunning

/-- R76: the head of every operation but `init`. -/
def whenConfigured (s : State) (k : Result) : Result :=
  whenIdle s (if s.configured then k else .next (silentNoOp .notConfigured s))

/-! ### Send -/

/-- R65: the bus transaction of a bit sequence. The state is tested before the length (R108). -/
def send (bits : List Bool) (s : State) : Result :=
  whenConfigured s
    (match wordOfSeq? bits with
     | none => .next (silentNoOp .invalidInstructionLength s)
     | some w => .next (startWords [w] s))

/-- `Send` of a word of ten bits. -/
def sendWord (w : Word) (s : State) : Result := send (seqOfWord w) s

/-- R79: re-apply the text configuration. -/
def applyTextConfig (s : State) : Result := whenConfigured s (sendWord (textConfigWord s.cfg) s)

/-- R80: re-apply the display configuration. -/
def applyDisplayConfig (s : State) : Result := whenConfigured s (sendWord (displayConfigWord s.cfg) s)

end Sys2Proof.Machine
end

