-- ==== Sys2Proof/Machine/AddressCommands.lean ====
section
/-! DEFINITION. The two address commands (40_encoder_commands.md R60, R61), sent as words (log 1). -/
namespace Sys2Proof.Machine

/-- R60, R65. -/
def execSetCGRAMAddress (address : CgramAddress) (s : State) : Result :=
  sendWord (encodeSetCGRAMAddress address) s

/-- R61, R65. -/
def execSetDDRAMAddress (address : DdramAddress) (s : State) : Result :=
  sendWord (encodeSetDDRAMAddress address) s

end Sys2Proof.Machine
end

