-- ==== Sys2Proof/Machine/ControlCommands.lean ====
section
/-! DEFINITION. The six control commands, RS = R/W = 0 (40_encoder_commands.md R54 to R59). The block executes an
instruction by sending the word its encoder function returns (00_scope.md R1, 41_bus_transaction.md R65; log 1). -/
namespace Sys2Proof.Machine

/-- R54, R65. -/
def execClearDisplay (s : State) : Result := sendWord encodeClearDisplay s

/-- R55, R65. -/
def execReturnHome (s : State) : Result := sendWord encodeReturnHome s

/-- R56, R65. -/
def execEntryModeSet (increment shiftDisplay : Bool) (s : State) : Result :=
  sendWord (encodeEntryModeSet increment shiftDisplay) s

/-- R57, R65. -/
def execDisplayOnOffControl (displayOn cursorOn blinkOn : Bool) (s : State) : Result :=
  sendWord (encodeDisplayOnOffControl displayOn cursorOn blinkOn) s

/-- R58, R65. -/
def execCursorDisplayShift (shiftDisplay shiftRight : Bool) (s : State) : Result :=
  sendWord (encodeCursorDisplayShift shiftDisplay shiftRight) s

/-- R59, R65. `is8Bit = false` is sent as asked: the encoder does not know that 4-bit transfer is unsupported. -/
def execFunctionSet (is8Bit twoLines font5x10 : Bool) (s : State) : Result :=
  sendWord (encodeFunctionSet is8Bit twoLines font5x10) s

end Sys2Proof.Machine
end

