-- ==== Sys2Proof/Machine/DataCommands.lean ====
section
/-! DEFINITION. The three commands selected by RS and R/W (40_encoder_commands.md R62 to R64), sent as words (log 1).
The two read words are sent like any other: the block drives R/W high and the data pins low and samples nothing
(20_memory.md R39, 70_reset_and_hazards.md R126). -/
namespace Sys2Proof.Machine

/-- R62, R39, R126. -/
def execReadBusyFlagAndAddress (s : State) : Result := sendWord encodeReadBusyFlagAndAddress s

/-- R63, R65. -/
def execWriteData (data : Byte) (s : State) : Result := sendWord (encodeWriteData data) s

/-- R64, R39, R126. -/
def execReadData (s : State) : Result := sendWord encodeReadData s

end Sys2Proof.Machine
end

