-- ==== Sys2Proof/Machine/Dispatch.lean ====
section
/-! DEFINITION. One arm per instruction. -/
namespace Sys2Proof.Machine

def exec (i : Instr) (s : State) : Host.Outcome State Fault Refusal :=
  match i with
  | .clearDisplay => Sys2Proof.Machine.execClearDisplay s
  | .returnHome => Sys2Proof.Machine.execReturnHome s
  | .entryModeSet increment shiftDisplay => Sys2Proof.Machine.execEntryModeSet increment shiftDisplay s
  | .displayOnOffControl displayOn cursorOn blinkOn => Sys2Proof.Machine.execDisplayOnOffControl displayOn cursorOn blinkOn s
  | .cursorDisplayShift shiftDisplay shiftRight => Sys2Proof.Machine.execCursorDisplayShift shiftDisplay shiftRight s
  | .functionSet is8Bit twoLines font5x10 => Sys2Proof.Machine.execFunctionSet is8Bit twoLines font5x10 s
  | .setCGRAMAddress address => Sys2Proof.Machine.execSetCGRAMAddress address s
  | .setDDRAMAddress address => Sys2Proof.Machine.execSetDDRAMAddress address s
  | .readBusyFlagAndAddress => Sys2Proof.Machine.execReadBusyFlagAndAddress s
  | .writeData data => Sys2Proof.Machine.execWriteData data s
  | .readData => Sys2Proof.Machine.execReadData s

end Sys2Proof.Machine
end

