-- ==== Sys2Proof/Machine/Sequencer.lean ====
section
/-! DEFINITION. One step of the sequencer while a call runs (10_state.md R22): the binding calls of `init`
(42_controller_operations.md R77, R78), the pin phase in any order (41_bus_transaction.md R66), and the tasks whose
order is fixed. -/
namespace Sys2Proof.Machine

/-- A binding call that may come next. -/
inductive BindCall where
  | openPin (r : Role)
  | setOutput (r : Role)
deriving DecidableEq, Repr

/-- R77 (e): any role not yet opened may be opened, and any opened one may be set to output. -/
def enabledCalls (j : BindJob) : List BindCall := j.toOpen.map .openPin ++ j.toSet.map .setOutput

/-- The event of a binding call. -/
def bindEvent (j : BindJob) : BindCall → Event
  | .openPin r => .openPin r (j.ids.get r)
  | .setOutput r => .setOutput r

/-- The job after a call has been answered. A role whose `Open` fails is not set to output. -/
def answeredJob (j : BindJob) : BindCall → BindJob
  | .openPin r =>
    match j.gpio.get r with
    | .openFails => { j with toOpen := j.toOpen.erase r, failed := true }
    | .bound _ => { j with toOpen := j.toOpen.erase r, toSet := j.toSet ++ [r] }
    | .setOutputFails => { j with toOpen := j.toOpen.erase r, toSet := j.toSet ++ [r] }
  | .setOutput r =>
    match j.gpio.get r with
    | .bound _ => { j with toSet := j.toSet.erase r }
    | .openFails => { j with toSet := j.toSet.erase r, failed := true }
    | .setOutputFails => { j with toSet := j.toSet.erase r, failed := true }

/-- R77: `state.bind[r] <- the handle`, once the role is opened and set to output. -/
def bindAfter (j : BindJob) (c : BindCall) (b : PerRole (Option Handle)) : PerRole (Option Handle) :=
  match c with
  | .openPin _ => b
  | .setOutput r =>
    match j.gpio.get r with
    | .bound h => b.set r (some h)
    | .openFails => b
    | .setOutputFails => b

/-- Where binding goes from a job (R77, R78, U11): a failed one ends when the free value says so or nothing is left to
call; one that is done goes on with the rest of `init`. -/
def bindGoesOn (stop : Bool) (j : BindJob) (ts : List Task) (s : State) : State :=
  if j.failed && (stop || (enabledCalls j).isEmpty) then failInit s
  else if (enabledCalls j).isEmpty then continueWith ts s
  else { s with phase := .bindPins j :: ts }

/-- One binding call. -/
def bindStep (k : Choice) (j : BindJob) (ts : List Task) (s : State) : Result :=
  match pick k.bindCall (enabledCalls j) with
  | none => .next (bindGoesOn k.stop j ts s)
  | some (c, _) =>
    callOut (bindEvent j c) s (fun s' =>
      bindGoesOn k.stop (answeredJob j c) ts (tookChoice { s' with bind := bindAfter j c s'.bind }))

/-- The tasks after one write of a pin phase. -/
def afterPin (w : Word) (left : List Role) (ts : List Task) : List Task :=
  match left with
  | [] => ts
  | r :: rest => .pins w (r :: rest) :: ts

/-- One write of a pin phase (R66). -/
def pinStep (k : Choice) (w : Word) (left : List Role) (ts : List Task) (s : State) : Result :=
  match pick k.pinWrite left with
  | none => .next (continueWith ts s)
  | some (r, rest) =>
    callOut (.write r (wordBit w r)) s (fun s' =>
      continueWith (afterPin w rest ts) (tookChoice (setPin r (wordBit w r) s')))

/-- The first task of the phase, under the open choices `k`; `ts` are the tasks after it. -/
def runTask (k : Choice) (t : Task) (ts : List Task) (s : State) : Result :=
  match t with
  | .bindPins j => bindStep k j ts s
  | .pins w left => pinStep k w left ts s
  | .write r v => callOut (.write r v) s (fun s' => continueWith ts (setPin r v s'))
  | .hold => callOut .hold s (fun s' => continueWith ts s')
  | .markConfigured => .next (continueWith ts { s with configured := true })

end Sys2Proof.Machine
end

