-- ==== Sys2Proof/Machine/Operations.lean ====
section
/-! DEFINITION. The sixteen host operations (42_controller_operations.md R76 to R95) and the evaluation of an encoder
function (40_encoder_commands.md R52, R53). An operation takes effect on the flags when it is accepted and leaves its
transactions in `phase` (log 2). -/
namespace Sys2Proof.Machine

/-- A binding of all eleven roles that has not begun. -/
def newJob (ids : PerRole PinId) (gpio : PerRole BindAnswer) : BindJob :=
  { ids := ids, gpio := gpio, toOpen := allRoles, toSet := [], failed := false }

/-- The word of `setCursorPosition` (R82): the low 7 bits of the address. -/
def cursorWord (cfg : Cfg) (row column : Nat) : Word :=
  encodeSetDDRAMAddress (BitVec.ofNat 7 (cursorAddress cfg row column))

/-- R77 step 4, "in order": the five words of the bring-up. -/
def bringUpWords (cfg : Cfg) : List Word :=
  [encodeClearDisplay, textConfigWord cfg, displayConfigWord cfg, encodeEntryModeSet true false, cursorWord cfg 0 0]

/-- R77 steps 2 to 4. -/
def bringUp (cfg : Cfg) : List Task :=
  .write .e false :: .markConfigured :: transactions (bringUpWords cfg)

/-- R77, R78. -/
def opInit (ids : PerRole PinId) (gpio : PerRole BindAnswer) (s : State) : Result :=
  whenIdle s
    (if s.configured then .refused .initWhileConfigured
     else .next { s with phase := .bindPins (newJob ids gpio) :: bringUp s.cfg, answer := none })

/-- R81. -/
def opClearDisplay (s : State) : Result := whenConfigured s (sendWord encodeClearDisplay s)

/-- R82. -/
def opSetCursorPosition (row column : Nat) (s : State) : Result :=
  whenConfigured s (sendWord (cursorWord s.cfg row column) s)

/-- The words of a text, in order (R83). -/
def textWords (text : List Byte) : List Word := text.map encodeWriteData

/-- R83. -/
def opWrite (text : List Byte) (s : State) : Result :=
  whenConfigured s (.next (startWords (textWords text) s))

/-- R84: the text, then address 40 in either line mode (C6, D17). -/
def opWriteLine (text : List Byte) (s : State) : Result :=
  whenConfigured s (.next (startWords (textWords text ++ [encodeSetDDRAMAddress 40#7]) s))

/-- R85. -/
def opTurnDisplayOn (s : State) : Result :=
  whenConfigured s (applyDisplayConfig { s with cfg := { s.cfg with displayOn := true } })

/-- R86. -/
def opTurnDisplayOff (s : State) : Result :=
  whenConfigured s (applyDisplayConfig { s with cfg := { s.cfg with displayOn := false } })

/-- R87. -/
def opTurnCursorOn (s : State) : Result :=
  whenConfigured s (applyDisplayConfig { s with cfg := { s.cfg with cursorOn := true } })

/-- R88. -/
def opTurnCursorOff (s : State) : Result :=
  whenConfigured s (applyDisplayConfig { s with cfg := { s.cfg with cursorOn := false } })

/-- R89. -/
def opStartCursorBlinking (s : State) : Result :=
  whenConfigured s (applyDisplayConfig { s with cfg := { s.cfg with cursorBlink := true } })

/-- R90. -/
def opStopCursorBlinking (s : State) : Result :=
  whenConfigured s (applyDisplayConfig { s with cfg := { s.cfg with cursorBlink := false } })

/-- R91: the only width there is (R99). -/
def opSwitchTo8BitMode (s : State) : Result :=
  whenConfigured s (applyTextConfig { s with cfg := { s.cfg with bitWidth := true } })

/-- R92. -/
def opSwitchToDoubleLines (s : State) : Result :=
  whenConfigured s (applyTextConfig { s with cfg := { s.cfg with lineCount := true } })

/-- R93. -/
def opSwitchToSingleLines (s : State) : Result :=
  whenConfigured s (applyTextConfig { s with cfg := { s.cfg with lineCount := false } })

/-- R94. -/
def opSwitchTo5x8Font (s : State) : Result :=
  whenConfigured s (applyTextConfig { s with cfg := { s.cfg with font := false } })

/-- R95. -/
def opSwitchTo5x10Font (s : State) : Result :=
  whenConfigured s (applyTextConfig { s with cfg := { s.cfg with font := true } })

/-- R52: the word, and nothing else, in either mode and whatever runs; R53: an argument that does not fit is refused. -/
def opEncode (c : Command) (s : State) : Result :=
  match c.narrow with
  | some i => .next { s with encoded := some (encode i) }
  | none => .refused .encoderArgumentOutOfRange

end Sys2Proof.Machine
end

