-- ==== Sys2Proof/Machine/HostCalls.lean ====
section
/-! DEFINITION. What a call of the host does when the block accepts it (30_encoding.md R51), and the bit sequence that
stands for a table word. -/
namespace Sys2Proof.Machine

/-- `Send` as the host presents it: the word of an instruction is executed as that instruction; any other bit sequence
goes to `Send` as it is (R46, R65). -/
def runSend (bits : List Bool) (s : State) : Result :=
  match decodeBits bits with
  | .ok i => exec i s
  | .error _ => send bits s

/-- One call, accepted. -/
def execCall (c : Call) (s : State) : Result :=
  match c with
  | .init ids gpio => opInit ids gpio s
  | .clearDisplay => opClearDisplay s
  | .setCursorPosition row column => opSetCursorPosition row column s
  | .write text => opWrite text s
  | .writeLine text => opWriteLine text s
  | .turnDisplayOn => opTurnDisplayOn s
  | .turnDisplayOff => opTurnDisplayOff s
  | .turnCursorOn => opTurnCursorOn s
  | .turnCursorOff => opTurnCursorOff s
  | .startCursorBlinking => opStartCursorBlinking s
  | .stopCursorBlinking => opStopCursorBlinking s
  | .switchTo8BitMode => opSwitchTo8BitMode s
  | .switchToDoubleLines => opSwitchToDoubleLines s
  | .switchToSingleLines => opSwitchToSingleLines s
  | .switchTo5x8Font => opSwitchTo5x8Font s
  | .switchTo5x10Font => opSwitchTo5x10Font s
  | .send bits => runSend bits s
  | .encode c => opEncode c s

/-- The host presents its next call without waiting for the running one (R114, R121). -/
def presentsEarly (s : State) : Bool :=
  match s.program with
  | [] => false
  | q :: _ => !q.waits

/-- The request presented now, and the ones after it: the host's next one when the block is Idle (R24), and while a
call runs only one that does not wait (log 12). -/
def presented (s : State) : Option (Request × List Request) :=
  match s.program with
  | [] => none
  | q :: rest => if s.phase = [] ∨ q.waits = false then some (q, rest) else none

/-- One step under the open choices `k`. A presented call is executed, and the call itself says what it does while
another one runs: an operation is refused (R121), an encoder function returns its word (R52). With nothing presented a
running call goes on with its first task, and an Idle block stays as it is (log 23). -/
def stepWith (k : Choice) (s : State) : Result :=
  match presented s with
  | some (q, rest) => execCall q.call { s with program := rest }
  | none =>
    match s.phase with
    | [] => .next s
    | t :: ts => runTask k t ts s

/-- The request that stands for a table word placed for the next step. -/
def tableRequest (nbits w : Nat) : Request := { call := .send (tableSeq nbits w), waits := true }

end Sys2Proof.Machine
end

