-- ==== Sys2Proof/Machine/Step.lean ====
section
/-! DEFINITION. One step of the machine, and placing an instruction for the next step. -/
namespace Sys2Proof.Machine

/-- One step, its open choices taken from the free values (00_scope.md R6). -/
def step (s : State) : Host.Outcome State Fault Refusal := stepWith (Config.choiceAt s.choices) s

/-- `s` with the word presented next: no call is running, and the host's next request is `Send` of the word (log 4). -/
def State.withFetchWord (s : State) (nbits w : Nat) : State :=
  { s with phase := [], program := tableRequest nbits w :: s.program }

end Sys2Proof.Machine
end

