-- ==== Sys2Proof/Machine/Trace.lean ====
section
/-! DEFINITION. What an observer reads from an event trace (00_scope.md R9): the levels on the pins, the transmitted
words (41_bus_transaction.md R69), the counts of events (70_reset_and_hazards.md R130) and the least time they take
(R129). -/
namespace Sys2Proof.Machine

/-- The levels after one event. -/
def seeEvent (p : PerRole Level) : Event → PerRole Level
  | .openPin _ _ => p
  | .setOutput _ => p
  | .write r v => p.set r (levelOf v)
  | .hold => p

/-- The levels after some events. -/
def pinsAfter (p : PerRole Level) (evs : List Event) : PerRole Level := evs.foldl seeEvent p

/-- The bit of a known level. -/
def bitOfLevel : Level → Option Bool
  | .unknown => none
  | .low => some false
  | .high => some true

/-- R69: the value of (`pin[RS]`, `pin[RW]`, `pin[D7]`, ..., `pin[D0]`); none while one of them is unknown. -/
def busWord (p : PerRole Level) : Option Word :=
  match wordRoles.mapM (fun r => bitOfLevel (p.get r)) with
  | none => none
  | some bits => wordOfSeq? bits

/-- R69: the transmitted words of a trace that begins with the levels `p`: the bus at each `Write(E, 1)`. -/
def transmitted (p : PerRole Level) : List Event → List (Option Word)
  | [] => []
  | ev :: rest =>
    if ev = .write .e true then busWord p :: transmitted (seeEvent p ev) rest
    else transmitted (seeEvent p ev) rest

/-- The number of `Hold` events. -/
def holdCount (evs : List Event) : Nat := evs.countP (fun ev => ev == .hold)

/-- Whether an event is a `Write`. -/
def isWrite : Event → Bool
  | .write _ _ => true
  | .openPin _ _ => false
  | .setOutput _ => false
  | .hold => false

/-- The number of `Write` events. -/
def writeCount (evs : List Event) : Nat := evs.countP isWrite

/-- R68, R129: the least time some events take, a hold lasting at least `T_UNIT`. -/
def leastTime (evs : List Event) : Nat := holdCount evs * Config.tUnit

end Sys2Proof.Machine
end

