-- ==== Sys2Proof/Safety.lean ====
section
/-! DEFINITION. The terms the statements are written in: the bus protocol as an observer checks it, the invariant of
the machine, and the words a host's calls ask for (30_encoding.md R50). -/
namespace Sys2Proof.Machine

/-! ### Running -/

/-- `n` steps of the machine, stopping at the first fault or refusal (`Host.Core.run` of `Sys2Proof.core`). -/
def runSteps : Nat → State → Host.Outcome State Fault Refusal
  | 0, s => .next s
  | n + 1, s =>
    match step s with
    | .next t => runSteps n t
    | .fault f => .fault f
    | .refused r => .refused r

/-- Steps under the open choices `ks`, one choice a step, whatever the free values are. -/
def runWith : List Choice → State → Host.Outcome State Fault Refusal
  | [], s => .next s
  | k :: ks, s =>
    match stepWith k s with
    | .next t => runWith ks t
    | .fault f => .fault f
    | .refused r => .refused r

/-- A machine that has just been reset, in front of a host with the requests `program` and calls of which the one after
the first `hang` never returns. -/
def freshBlock (program : List Request) (hang : Option Nat) : State :=
  { State.reset with program := program, hang := hang }

/-- The block is Configured and Idle, every call out returns, and the host waits: what every completed call needs. -/
structure Ready (s : State) : Prop where
  configured : s.configured = true
  idle : s.phase = []
  returns : s.hang = none
  waits : presentsEarly s = false

/-! ### The bus protocol (41_bus_transaction.md R66, R67; 70_reset_and_hazards.md R123) -/

/-- Where an observer stands in the protocol. -/
inductive Watch where
  /-- Before the baseline `Write(E, 0)` of `init`: only `Open` and `SetOutput` may come. -/
  | binding
  /-- A pin phase: these roles are still to be written. All ten: between transactions. -/
  | load (missing : List Role)
  /-- After the first `Write(E, 0)` of a strobe. -/
  | low1
  /-- After the first hold. -/
  | held1
  /-- After `Write(E, 1)`. -/
  | raised
  /-- After the second hold. -/
  | held2
  /-- After the second `Write(E, 0)`. -/
  | low2
deriving DecidableEq, Repr

/-- Where one event leads, none where the protocol forbids it. -/
def watchEvent : Watch → Event → Option Watch
  | .binding, .openPin _ _ => some .binding
  | .binding, .setOutput _ => some .binding
  | .binding, .write r v => if r = .e ∧ v = false then some (.load wordRoles) else none
  | .load missing, .write r v =>
    if r ∈ missing then some (.load (missing.erase r))
    else if r = .e ∧ v = false ∧ missing = [] then some .low1
    else none
  | .low1, .hold => some .held1
  | .held1, .write r v => if r = .e ∧ v = true then some .raised else none
  | .raised, .hold => some .held2
  | .held2, .write r v => if r = .e ∧ v = false then some .low2 else none
  | .low2, .hold => some (.load wordRoles)
  | _, _ => none

/-- Where a trace leads. -/
def watch (m : Watch) (evs : List Event) : Option Watch := evs.foldlM watchEvent m

/-- Where a task of the sequencer leads. -/
def watchTask (m : Watch) : Task → Option Watch
  | .bindPins _ => if m = .binding then some m else none
  | .pins _ left => if m = .load left ∧ left ≠ [] then some (.load []) else none
  | .write r v => watchEvent m (.write r v)
  | .hold => watchEvent m .hold
  | .markConfigured => if m = .load wordRoles then some m else none

/-- The tasks `ts` lead from `m` to a place between transactions. -/
def fits (m : Watch) (ts : List Task) : Bool :=
  match ts.foldlM watchTask m with
  | some m' => m' = .binding || m' = .load wordRoles
  | none => false

/-! ### The invariant -/

/-- The levels after one task. -/
def pinsAfterTask (p : PerRole Level) : Task → PerRole Level
  | .bindPins _ => p
  | .pins w left => left.foldl (fun q r => q.set r (levelOf (wordBit w r))) p
  | .write r v => p.set r (levelOf v)
  | .hold => p
  | .markConfigured => p

/-- The levels once all tasks have run. -/
def pinsAtEnd (p : PerRole Level) (ts : List Task) : PerRole Level := ts.foldl pinsAfterTask p

/-- R75, R21: Enable is low and every level is known. -/
def Settled (p : PerRole Level) : Prop := p.e = .low ∧ ∀ r, p.get r ≠ .unknown

/-- Every role is bound (R20). -/
def AllBound (b : PerRole (Option Handle)) : Prop := ∀ r, (b.get r).isSome = true

/-- A running binding: unless a call has failed, every role is bound, opened, or still to be opened, and an opened
role did open. -/
def JobSound (j : BindJob) (b : PerRole (Option Handle)) : Prop :=
  j.failed = true ∨ ∀ r, r ∈ j.toOpen ∨ r ∈ j.toSet ∨ (b.get r).isSome = true

/-- What holds in Unconfigured: nothing is bound and nothing written when Idle; otherwise `init` runs, and only its
last part is left. -/
def UnconfiguredSound (s : State) : Prop :=
  (s.phase = [] ∧ s.bind = everyRole none ∧ s.pin = everyRole .unknown) ∨
  (∃ j, s.phase = .bindPins j :: bringUp s.cfg ∧ JobSound j s.bind ∧ s.pin = everyRole .unknown) ∨
  (s.phase = bringUp s.cfg ∧ AllBound s.bind ∧ s.pin = everyRole .unknown) ∨
  (s.phase = (bringUp s.cfg).tail ∧ AllBound s.bind ∧ s.pin = (everyRole .unknown).set .e .low)

/-- A task that sends part of a transaction. -/
def Task.ofTransaction : Task → Bool
  | .bindPins _ => false
  | .pins _ _ => true
  | .write _ _ => true
  | .hold => true
  | .markConfigured => false

/-- The invariant of the machine. -/
structure BlockInv (s : State) : Prop where
  /-- R21: `pin[role]` is the level last written to each pin. -/
  lastWritten : s.pin = pinsAfter (everyRole .unknown) s.trace
  /-- R16: `cfg.bitWidth` is 1. -/
  eightBit : s.cfg.bitWidth = true
  /-- R19: "no flag can change before `init` succeeds". -/
  defaults : s.configured = false → s.cfg = Cfg.reset
  /-- R66, R67, R123: the trace follows the bus protocol and the phase continues it. -/
  protocol : ∃ m, watch .binding s.trace = some m ∧ fits m s.phase = true
  /-- R20, R27, R77: what is bound and written while Unconfigured. -/
  unconfigured : s.configured = false → UnconfiguredSound s
  /-- R20: all eleven roles are bound. -/
  bound : s.configured = true → AllBound s.bind
  /-- R77: `init` does nothing but send words once it has marked the block configured. -/
  sending : s.configured = true → ∀ t ∈ s.phase, t.ofTransaction = true
  /-- R21, R75: once what runs has ended, Enable is low and every level is known. -/
  settled : s.configured = true → Settled (pinsAtEnd s.pin s.phase)
  /-- R71: while a call runs the host has no answer. -/
  suspended : s.phase ≠ [] → s.answer = none

/-! ### What a host's calls ask for, in numbers (30_encoding.md R50) -/

/-- The numeral of a bit sequence read left to right (R7). -/
def numeral (bits : List Bool) : Nat := bits.foldl (fun n b => 2 * n + b.toNat) 0

/-- R57, R80: 8 and the display, cursor and blink flags at 4, 2, 1. -/
def displayWordNumber (cfg : Cfg) : Nat :=
  8 + 4 * cfg.displayOn.toNat + 2 * cfg.cursorOn.toNat + cfg.cursorBlink.toNat

/-- R59, R79: 32 and the width, line and font flags at 16, 8, 4. -/
def textWordNumber (cfg : Cfg) : Nat :=
  32 + 16 * cfg.bitWidth.toNat + 8 * cfg.lineCount.toNat + 4 * cfg.font.toNat

/-- R82: 128 plus 40 times the clamped row plus the clamped column. -/
def cursorWordNumber (cfg : Cfg) (row column : Nat) : Nat :=
  128 + 40 * (if cfg.lineCount then min row 1 else 0) + min column 40

/-- R85 to R95: the configuration after a call in Configured. -/
def cfgAfterCall (cfg : Cfg) : Call → Cfg
  | .turnDisplayOn => { cfg with displayOn := true }
  | .turnDisplayOff => { cfg with displayOn := false }
  | .turnCursorOn => { cfg with cursorOn := true }
  | .turnCursorOff => { cfg with cursorOn := false }
  | .startCursorBlinking => { cfg with cursorBlink := true }
  | .stopCursorBlinking => { cfg with cursorBlink := false }
  | .switchTo8BitMode => { cfg with bitWidth := true }
  | .switchToDoubleLines => { cfg with lineCount := true }
  | .switchToSingleLines => { cfg with lineCount := false }
  | .switchTo5x8Font => { cfg with font := false }
  | .switchTo5x10Font => { cfg with font := true }
  | .init _ _ => cfg
  | .clearDisplay => cfg
  | .setCursorPosition _ _ => cfg
  | .write _ => cfg
  | .writeLine _ => cfg
  | .send _ => cfg
  | .encode _ => cfg

/-- R50: the words a call sends in Configured, as numbers. `init` has no meaning there (R77 (d)) and stands with none. -/
def callWordNumbers (cfg : Cfg) : Call → List Nat
  | .init _ _ => []
  | .clearDisplay => [0x001]
  | .setCursorPosition row column => [cursorWordNumber cfg row column]
  | .write text => text.map (fun b => 0x200 + b.toNat)
  | .writeLine text => text.map (fun b => 0x200 + b.toNat) ++ [0x0A8]
  | .turnDisplayOn => [displayWordNumber (cfgAfterCall cfg .turnDisplayOn)]
  | .turnDisplayOff => [displayWordNumber (cfgAfterCall cfg .turnDisplayOff)]
  | .turnCursorOn => [displayWordNumber (cfgAfterCall cfg .turnCursorOn)]
  | .turnCursorOff => [displayWordNumber (cfgAfterCall cfg .turnCursorOff)]
  | .startCursorBlinking => [displayWordNumber (cfgAfterCall cfg .startCursorBlinking)]
  | .stopCursorBlinking => [displayWordNumber (cfgAfterCall cfg .stopCursorBlinking)]
  | .switchTo8BitMode => [textWordNumber (cfgAfterCall cfg .switchTo8BitMode)]
  | .switchToDoubleLines => [textWordNumber (cfgAfterCall cfg .switchToDoubleLines)]
  | .switchToSingleLines => [textWordNumber (cfgAfterCall cfg .switchToSingleLines)]
  | .switchTo5x8Font => [textWordNumber (cfgAfterCall cfg .switchTo5x8Font)]
  | .switchTo5x10Font => [textWordNumber (cfgAfterCall cfg .switchTo5x10Font)]
  | .send bits => if bits.length = 10 then [numeral bits] else []
  | .encode _ => []

/-- The words of a list of calls, the configuration threaded through them. -/
def sessionWordNumbers (cfg : Cfg) : List Call → List Nat
  | [] => []
  | c :: rest => callWordNumbers cfg c ++ sessionWordNumbers (cfgAfterCall cfg c) rest

/-- The configuration after a list of calls. -/
def sessionCfg (cfg : Cfg) (calls : List Call) : Cfg := calls.foldl cfgAfterCall cfg

/-- A number as the transmitted word an observer reads. -/
def asWord (n : Nat) : Option Word := some (BitVec.ofNat 10 n)

/-- Whether a call is `init`. -/
def isInit : Call → Bool
  | .init _ _ => true
  | _ => false

/-- The GPIO collaborator answers every role with success. -/
def allSucceed (gpio : PerRole BindAnswer) : Prop := ∀ r, ∃ h, gpio.get r = .bound h

/-! ### The orders a binding may take (42_controller_operations.md R77 (e), R78) -/

/-- R77 (e): the calls of a binding in an order the spec allows: none twice, and a role is set to output only after its
own `Open`, which has not failed. -/
def AllowedBinding (gpio : PerRole BindAnswer) (calls : List BindCall) : Prop :=
  calls.Nodup ∧ ∀ before r after, calls = before ++ .setOutput r :: after →
    .openPin r ∈ before ∧ gpio.get r ≠ .openFails

/-- R78, R113: whether the GPIO collaborator fails a call. -/
def bindCallFails (gpio : PerRole BindAnswer) : BindCall → Bool
  | .openPin r => gpio.get r == .openFails
  | .setOutput r => gpio.get r == .setOutputFails

/-! ### A whole transaction -/

/-- The levels on the pins after a transaction of `w` (R41, R67): D n carries w[n], RS w[9], R/W w[8], Enable is low. -/
def levelsOfWord (w : Word) : PerRole Level :=
  { rs := levelOf (w.getLsbD 9), rw := levelOf (w.getLsbD 8), e := .low,
    d7 := levelOf (w.getLsbD 7), d6 := levelOf (w.getLsbD 6), d5 := levelOf (w.getLsbD 5),
    d4 := levelOf (w.getLsbD 4), d3 := levelOf (w.getLsbD 3), d2 := levelOf (w.getLsbD 2),
    d1 := levelOf (w.getLsbD 1), d0 := levelOf (w.getLsbD 0) }

/-- R66: the ten writes of a pin phase, in one order; a transaction makes them in any. -/
def pinPhaseEvents (w : Word) : List Event :=
  [.write .rs (w.getLsbD 9), .write .rw (w.getLsbD 8), .write .d7 (w.getLsbD 7), .write .d6 (w.getLsbD 6),
   .write .d5 (w.getLsbD 5), .write .d4 (w.getLsbD 4), .write .d3 (w.getLsbD 3), .write .d2 (w.getLsbD 2),
   .write .d1 (w.getLsbD 1), .write .d0 (w.getLsbD 0)]

/-- R67: the six events of a strobe. -/
def strobeEvents : List Event :=
  [.write .e false, .hold, .write .e true, .hold, .write .e false, .hold]

/-- `r`, answered in `s`, starts one bus transaction of the word numbered `n`, whose sixteen steps lead to a state in
which the ten pins carry the word, Enable is low, the trace has grown by the ten writes (in some order) and the strobe,
the host has its answer, and everything else (configuration, binding, program, ...) is as in `s`. -/
def SendsWord (s : State) (n : Nat) (r : Host.Outcome State Fault Refusal) : Prop :=
  ∃ t u writes, r = .next t ∧ runSteps 16 t = .next u ∧
    writes.Perm (pinPhaseEvents (BitVec.ofNat 10 n)) ∧
    u = { s with
          pin := levelsOfWord (BitVec.ofNat 10 n), phase := [], trace := s.trace ++ (writes ++ strobeEvents),
          answer := some (report .ok), choices := u.choices }

/-- `r`, answered in `s`, sends the words numbered `ns`, one transaction of sixteen steps after another, and leaves the
configuration `cfg`; everything but the pins, the trace and the answer is otherwise as in `s`. -/
def SendsWords (s : State) (cfg : Cfg) (ns : List Nat) (r : Host.Outcome State Fault Refusal) : Prop :=
  ∃ t u evs, r = .next t ∧ runSteps (16 * ns.length) t = .next u ∧
    transmitted s.pin evs = ns.map asWord ∧
    writeCount evs = 13 * ns.length ∧ holdCount evs = 3 * ns.length ∧ evs.length = 16 * ns.length ∧
    u = { s with
          cfg := cfg, pin := pinsAfter s.pin evs, phase := [], trace := s.trace ++ evs,
          answer := some (report .ok), choices := u.choices }

end Sys2Proof.Machine
end

