-- ==== Sys2Proof/Certificates/Slice0/Obligations.lean ====
section
/-! DEFINITION. The statements for the provers. `runSteps` runs the machine; `BlockInv`, `SendsWord`, `SendsWords`,
`watch` and the other terms are those of Sys2Proof/Safety.lean. -/

open Sys2Proof Sys2Proof.Machine

/-! ### Reset and the invariant -/

/-- R27, the table of reset values. -/
def Obligations.ResetLeavesTheDefaults : Prop :=
  State.reset.configured = false ∧
  State.reset.cfg.displayOn = true ∧ State.reset.cfg.cursorOn = true ∧ State.reset.cfg.cursorBlink = false ∧
  State.reset.cfg.bitWidth = true ∧ State.reset.cfg.lineCount = true ∧ State.reset.cfg.font = false ∧
  (∀ r, State.reset.bind.get r = none) ∧ (∀ r, State.reset.pin.get r = .unknown) ∧ State.reset.phase = []

/-- R118, R119: a block that has just been reset meets the invariant, whatever its host will present. -/
def Obligations.InvariantHoldsAfterReset : Prop :=
  ∀ program hang, BlockInv (freshBlock program hang)

/-- The invariant of R16, R19, R20, R21, R66, R67, R71, R75 is kept by every step, from every state that meets it. -/
def Obligations.EveryStepKeepsTheInvariant : Prop :=
  ∀ s t, BlockInv s → step s = .next t → BlockInv t

/-! ### Encoding -/

/-- R45, R52: decoding the word of an instruction gives the instruction back, with every operand at every value, as a
bit sequence and as a table word of ten bits or of two whole bytes. That a table word is read as the ten bits of its value,
also when it is padded to two whole bytes, is the model's numbering (log 22): the spec has words of ten bits only (R40). -/
def Obligations.DecodingInvertsEncoding : Prop :=
  ∀ i : Instr, i.wf = true →
    decodeBits (seqOfWord (encode i)) = .ok i ∧
    decodeTableWord 10 (encode i).toNat = some i ∧ decodeTableWord 16 (encode i).toNat = some i

/-- A bit sequence decodes to an instruction exactly when it is that instruction's word. -/
def Obligations.OnlyEncodingsDecode : Prop :=
  ∀ (bits : List Bool) (i : Instr), decodeBits bits = .ok i ↔ bits = seqOfWord (encode i)

/-- R45: no word satisfies two rows of the opcode map. -/
def Obligations.OpcodeRowsExcludeEachOther : Prop :=
  opcodeMap.Pairwise (fun r q => ∀ w, ¬ (r.accepts w = true ∧ q.accepts w = true))

/-- R46: the words no row accepts, by number. -/
def Obligations.NonCanonicalWordsAreTheListedOnes : Prop :=
  ∀ w : Word, decodeWord w = none ↔
    (w.toNat = 0x000 ∨ w.toNat = 0x002 ∨ (0x010 ≤ w.toNat ∧ w.toNat < 0x040 ∧ w.toNat % 4 ≠ 0) ∨
      (0x101 ≤ w.toNat ∧ w.toNat ≤ 0x1FF) ∨ 0x301 ≤ w.toNat)

/-- Four words of 95_test_vectors.md V1 and V2, written out bit by bit, decode to what they stand for, and 0x301, one of
the words of R46, to no instruction. -/
def Obligations.WrittenOutWordsDecode : Prop :=
  decodeBits [false, false, false, false, false, false, false, false, true, true] = .ok .returnHome ∧
  decodeBits [false, false, false, false, false, true, true, false, false, false] = .ok (.cursorDisplayShift true false) ∧
  decodeBits [false, false, true, true, false, false, false, false, false, false] = .ok (.setDDRAMAddress 64#7) ∧
  decodeBits [true, false, false, true, true, false, true, false, false, true] = .ok (.writeData 0x69#8) ∧
  decodeBits [true, true, false, false, false, false, false, false, false, true] = .error (.nonCanonical 0x301#10)

/-- R52: evaluating an encoder function returns its word, in any mode, while nothing is bound and while a call runs, and
touches nothing but the model's own record of the word (log 29); the words by number, as R54 to R64 give them. -/
def Obligations.EncoderReturnsTheWordAndTouchesNothing : Prop :=
  ∀ s : State,
    let answers := fun (c : Command) (n : Nat) =>
      execCall (.encode c) s = .next { s with encoded := some (BitVec.ofNat 10 n) }
    answers .clearDisplay 0x001 ∧ answers .returnHome 0x003 ∧
    (∀ i h, answers (.entryModeSet i h) (0x004 + 2 * i.toNat + h.toNat)) ∧
    (∀ d c b, answers (.displayOnOffControl d c b) (0x008 + 4 * d.toNat + 2 * c.toNat + b.toNat)) ∧
    (∀ h r, answers (.cursorDisplayShift h r) (0x010 + 8 * h.toNat + 4 * r.toNat)) ∧
    (∀ l n f, answers (.functionSet l n f) (0x020 + 16 * l.toNat + 8 * n.toNat + 4 * f.toNat)) ∧
    (∀ a, a < 64 → answers (.setCGRAMAddress a) (0x040 + a)) ∧
    (∀ a, a < 128 → answers (.setDDRAMAddress a) (0x080 + a)) ∧
    answers .readBusyFlagAndAddress 0x100 ∧
    (∀ d, d < 256 → answers (.writeData d) (0x200 + d)) ∧
    answers .readData 0x300

/-- R53, U1: an argument wider than its field is refused, never cut. -/
def Obligations.EncoderRefusesWideArguments : Prop :=
  ∀ (c : Command) (s : State),
    execCall (.encode c) s = .refused .encoderArgumentOutOfRange ↔
      ((∃ a, c = .setCGRAMAddress a ∧ 64 ≤ a) ∨ (∃ a, c = .setDDRAMAddress a ∧ 128 ≤ a) ∨
        (∃ d, c = .writeData d ∧ 256 ≤ d))

/-- R52: a step at which a host presents an encoder function returns its word, also while an operation runs: the running
one keeps its place, its trace and its answer. Which request is presented while an operation runs is the model's choice
(log 12). -/
def Obligations.EncoderIsEvaluatedWhateverRuns : Prop :=
  ∀ (s : State) (q : Request) (rest : List Request) (i : Instr),
    s.program = q :: rest → q.call = .encode i.toCommand → (s.phase = [] ∨ q.waits = false) →
    step s = .next { s with program := rest, encoded := some (encode i) }

/-- R54, R56, R57, whole: the word, the bits that select the instruction and carry its parameters, and its uses. That a
word is recorded in `encoded` is the model's own (log 29). -/
def Obligations.ThreeEncoderRulesAsWritten : Prop :=
  ∀ s : State,
    (execCall (.encode .clearDisplay) s = .next { s with encoded := some 0x001#10 } ∧
      (∀ w, decodeWord w = some .clearDisplay ↔ w &&& 0x3FF#10 = 0x001#10) ∧
      execCall .clearDisplay s = sendWord 0x001#10 s ∧ (bringUpWords s.cfg)[0]? = some 0x001#10) ∧
    ((∀ i h, execCall (.encode (.entryModeSet i h)) s =
        .next { s with encoded := some (0x004#10 ||| (b2i i <<< 1) ||| b2i h) }) ∧
      (∀ w, (∃ i h, decodeWord w = some (.entryModeSet i h)) ↔ w &&& 0x3FC#10 = 0x004#10) ∧
      (∀ w i h, decodeWord w = some (.entryModeSet i h) → i = w.getLsbD 1 ∧ h = w.getLsbD 0) ∧
      (bringUpWords s.cfg)[3]? = some 0x006#10) ∧
    ((∀ d c b, execCall (.encode (.displayOnOffControl d c b)) s =
        .next { s with encoded := some (0x008#10 ||| (b2i d <<< 2) ||| (b2i c <<< 1) ||| b2i b) }) ∧
      (∀ w, (∃ d c b, decodeWord w = some (.displayOnOffControl d c b)) ↔ w &&& 0x3F8#10 = 0x008#10) ∧
      (∀ w d c b, decodeWord w = some (.displayOnOffControl d c b) →
        d = w.getLsbD 2 ∧ c = w.getLsbD 1 ∧ b = w.getLsbD 0) ∧
      applyDisplayConfig s = sendWord (0x008#10 ||| (b2i s.cfg.displayOn <<< 2) ||| (b2i s.cfg.cursorOn <<< 1) |||
        b2i s.cfg.cursorBlink) s)

/-! ### Instructions and the bus transaction -/

/-- A step presents the decoded instruction: `exec` at the same state with the request taken from the program, for a
request placed by the host and for a word placed by `withFetchWord`. That `Send` of an instruction's bits is `exec` of it
is the model's reading (log 1); that `withFetchWord` ends a running call and places a request is the model's choice
(log 4), and so is which bits a table word stands for (log 22). -/
def Obligations.StepRunsTheDecodedInstruction : Prop :=
  (∀ (s : State) (q : Request) (rest : List Request) (bits : List Bool) (i : Instr),
    s.phase = [] → s.program = q :: rest → q.call = .send bits → decodeBits bits = .ok i →
    step s = exec i { s with program := rest }) ∧
  (∀ (s : State) (nbits w : Nat) (i : Instr), decodeTableWord nbits w = some i →
    step (s.withFetchWord nbits w) = exec i { s with phase := [] })

/-- What a step does when there is no instruction to present: nothing while the host presents nothing (the model's
choice, log 23); the first task of the phase while a call runs. -/
def Obligations.StepOtherwiseRunsThePhase : Prop :=
  (∀ s : State, s.phase = [] → s.program = [] → step s = .next s) ∧
  (∀ (s : State) (t : Task) (ts : List Task), s.phase = t :: ts → presentsEarly s = false →
    step s = runTask (Config.choiceAt s.choices) t ts s)

/-- R65 to R67 with the words of R54 to R59: in Configured executing a control command sends its word. That executing an
instruction is `Send` of its word is the model's reading (log 1). -/
def Obligations.ControlCommandsSendTheirWords : Prop :=
  ∀ s : State, Ready s →
    SendsWord s 0x001 (exec .clearDisplay s) ∧
    SendsWord s 0x003 (exec .returnHome s) ∧
    (∀ i h, SendsWord s (0x004 + 2 * i.toNat + h.toNat) (exec (.entryModeSet i h) s)) ∧
    (∀ d c b, SendsWord s (0x008 + 4 * d.toNat + 2 * c.toNat + b.toNat) (exec (.displayOnOffControl d c b) s)) ∧
    (∀ h r, SendsWord s (0x010 + 8 * h.toNat + 4 * r.toNat) (exec (.cursorDisplayShift h r) s)) ∧
    (∀ l n f, SendsWord s (0x020 + 16 * l.toNat + 8 * n.toNat + 4 * f.toNat) (exec (.functionSet l n f) s))

/-- R65 to R67 with the words of R60, R61: in Configured executing an address command sends its word. That executing an
instruction is `Send` of its word is the model's reading (log 1). -/
def Obligations.AddressCommandsSendTheirWords : Prop :=
  ∀ s : State, Ready s →
    (∀ a : CgramAddress, SendsWord s (0x040 + a.toNat) (exec (.setCGRAMAddress a) s)) ∧
    (∀ a : DdramAddress, SendsWord s (0x080 + a.toNat) (exec (.setDDRAMAddress a) s))

/-- R65 to R67 with the words of R62 to R64, R39, R126: in Configured executing the data command or a read command sends
its word, and nothing is read. That executing an instruction is `Send` of its word is the model's reading (log 1). -/
def Obligations.DataAndReadCommandsSendTheirWords : Prop :=
  ∀ s : State, Ready s →
    (∀ d : Byte, SendsWord s (0x200 + d.toNat) (exec (.writeData d) s)) ∧
    SendsWord s 0x100 (exec .readBusyFlagAndAddress s) ∧
    SendsWord s 0x300 (exec .readData s)

/-- The frame of every instruction: when `exec` answers a next state, the flags, the binding, the pins, the trace, the
program and the calls out are as before; only the phase and the answer may differ, and the phase is as before or holds
the transaction of the instruction's word. That executing is `Send` of the word is the model's reading (log 1), that
`exec` leaves the transaction in the phase its choice (log 2). -/
def Obligations.InstructionFrame : Prop :=
  ∀ (i : Instr) (s t : State), exec i s = .next t →
    t.configured = s.configured ∧ t.cfg = s.cfg ∧ t.bind = s.bind ∧ t.pin = s.pin ∧ t.trace = s.trace ∧
    t.encoded = s.encoded ∧ t.program = s.program ∧ t.hang = s.hang ∧ t.choices = s.choices ∧
    ((s.configured = false ∧ t.phase = s.phase ∧ t.answer = some (report .notConfigured)) ∨
      (s.configured = true ∧ t.phase = transaction (encode i) ∧ t.answer = none))

/-- R65, R102: in Unconfigured executing any instruction is a silent no-op, executing being `Send` of its word by the
model's reading (log 1). -/
def Obligations.InstructionsInUnconfiguredDoNothing : Prop :=
  ∀ (i : Instr) (s : State), s.configured = false → s.phase = [] →
    exec i s = .next { s with answer := some (report .notConfigured) }

/-- R65, R66, R67, R73: `Send` of ten bits in Configured emits the ten pin writes in some order and then the strobe;
`Send` of any other length, or in Unconfigured, emits nothing and changes no state of the block. -/
def Obligations.SendTransmitsOrDoesNothing : Prop :=
  ∀ (bits : List Bool) (s : State), s.phase = [] →
    (Ready s → bits.length = 10 → SendsWord s (numeral bits) (execCall (.send bits) s)) ∧
    (s.configured = true → bits.length ≠ 10 →
      execCall (.send bits) s = .next { s with answer := some (report .invalidInstructionLength) }) ∧
    (s.configured = false → execCall (.send bits) s = .next { s with answer := some (report .notConfigured) })

/-- R106, R108, R70: what the host is told. Without `STRICT_RESULT` nothing; with it the condition itself, NotConfigured
for every instruction, `Send` and operation in Unconfigured, whatever the length, InvalidInstructionLength for a malformed
`Send` in Configured, and ok when a transaction has ended. That instructions are `Send`s is log 1, the field that holds
what is told log 14. -/
def Obligations.ConditionsAreToldExactlyWhenResultsAreStrict : Prop :=
  let told := fun (a : Answer) => some (if Config.strictResult then a else .silent)
  (∀ a, reportUnder true a = a ∧ reportUnder false a = .silent) ∧
  (∀ (i : Instr) (s : State), s.configured = false → s.phase = [] →
    exec i s = .next { s with answer := told .notConfigured }) ∧
  (∀ (c : Call) (s : State), s.configured = false → s.phase = [] → isInit c = false → (∀ e, c ≠ .encode e) →
    execCall c s = .next { s with answer := told .notConfigured }) ∧
  (∀ (bits : List Bool) (s : State), s.configured = true → s.phase = [] → bits.length ≠ 10 →
    execCall (.send bits) s = .next { s with answer := told .invalidInstructionLength }) ∧
  (∀ (i : Instr) (s : State), Ready s →
    ∃ t u, exec i s = .next t ∧ t.answer = none ∧ runSteps 16 t = .next u ∧ u.answer = told .ok)

/-- R69: the transmitted word of a transaction, read from the trace at `Write(E, 1)`, is the word sent, whatever order
the pin writes came in. -/
def Obligations.TransmittedWordIsTheWordSent : Prop :=
  ∀ (w : Word) (writes : List Event) (p : PerRole Level), writes.Perm (pinPhaseEvents w) →
    transmitted p (writes ++ strobeEvents) = [some w] ∧
    pinsAfter p (writes ++ strobeEvents) = levelsOfWord w

/-- R66, D7: the model admits every order of the ten writes: for each there are open choices under which a pin phase
makes exactly these writes in this order. -/
def Obligations.EveryWriteOrderIsPossible : Prop :=
  ∀ (w : Word) (writes : List Event) (s : State) (ts : List Task), writes.Perm (pinPhaseEvents w) →
    s.phase = .pins w wordRoles :: ts → s.hang = none → presentsEarly s = false →
    ∃ ks u, ks.length = 10 ∧ runWith ks s = .next u ∧ u.trace = s.trace ++ writes

/-- R71, R72: a transaction that has begun keeps its caller waiting until its last hold has ended: after each of its
first fifteen steps the block is not Idle and has answered nothing. That executing an instruction starts its transaction
is the model's reading (log 1), that a step makes one event its choice (log 2). -/
def Obligations.TransactionSuspendsUntilTheLastHold : Prop :=
  ∀ (i : Instr) (s t : State) (k : Nat), Ready s → exec i s = .next t → k < 16 →
    ∃ v, runSteps k t = .next v ∧ v.phase ≠ [] ∧ v.answer = none ∧ v.trace.length = s.trace.length + k

/-- R121, D19: no operation is accepted while a call runs: every instruction (executing it is a `Send`, log 1) and every
operation is refused, and so is a step at which the host presents one without waiting (log 12). An encoder function is no
operation and uses no part of the controller: see `EncoderIsEvaluatedWhateverRuns`. -/
def Obligations.CallsWhileRunningAreRefused : Prop :=
  (∀ (i : Instr) (s : State), s.phase ≠ [] → exec i s = .refused .operationWhileRunning) ∧
  (∀ (c : Call) (s : State), s.phase ≠ [] → (∀ e, c ≠ .encode e) → execCall c s = .refused .operationWhileRunning) ∧
  (∀ (s : State) (q : Request) (rest : List Request), s.phase ≠ [] → s.program = q :: rest → q.waits = false →
    (∀ e, q.call ≠ .encode e) → step s = .refused .operationWhileRunning)

/-! ### Operations -/

/-- R76, R102: every operation but `init` invoked in Unconfigured changes no field of the block and emits nothing. -/
def Obligations.OperationsInUnconfiguredDoNothing : Prop :=
  ∀ (c : Call) (s : State), s.configured = false → s.phase = [] → isInit c = false → (∀ e, c ≠ .encode e) →
    execCall c s = .next { s with answer := some (report .notConfigured) } ∧
    applyTextConfig s = .next { s with answer := some (report .notConfigured) } ∧
    applyDisplayConfig s = .next { s with answer := some (report .notConfigured) }

/-- R77 (d), D14, U3: `init` in Configured is refused, in every Configured state that is Idle, and in no other. -/
def Obligations.InitIsRefusedExactlyInConfigured : Prop :=
  ∀ (ids : PerRole PinId) (gpio : PerRole BindAnswer) (s : State), s.phase = [] →
    (execCall (.init ids gpio) s = .refused .initWhileConfigured ↔ s.configured = true)

/-- R77, R120, V9: a successful `init` from any reachable Unconfigured state opens and sets each role once, each opened
before it is set, drives Enable low, and sends 0x001, 0x038, 0x00E, 0x006, 0x080. -/
def Obligations.InitBringsUpTheDisplay : Prop :=
  ∀ (ids : PerRole PinId) (gpio : PerRole BindAnswer) (s : State),
    BlockInv s → s.configured = false → s.phase = [] → s.hang = none → presentsEarly s = false → allSucceed gpio →
    ∃ t u bindings evs,
      execCall (.init ids gpio) s = .next t ∧ runSteps 104 t = .next u ∧
      bindings.Perm (allRoles.map (fun r => Event.openPin r (ids.get r)) ++ allRoles.map Event.setOutput) ∧
      (∀ before r after, bindings = before ++ Event.setOutput r :: after → Event.openPin r (ids.get r) ∈ before) ∧
      transmitted (pinsAfter s.pin [.write .e false]) evs = [0x001, 0x038, 0x00E, 0x006, 0x080].map asWord ∧
      writeCount evs = 65 ∧ holdCount evs = 15 ∧
      (∀ r h, gpio.get r = .bound h → u.bind.get r = some h) ∧
      u = { s with
            configured := true, bind := u.bind, pin := levelsOfWord 0x080#10, phase := [],
            trace := s.trace ++ (bindings ++ Event.write .e false :: evs),
            answer := some (report .ok), choices := u.choices }

/-- R78, R103: an `init` of which a binding fails ends with the block as it was (nothing bound, Unconfigured, no pin
written), `init` reported as failed, and only `Open` and `SetOutput` calls in the trace, the failing one among them, which
is the model's reading (log 27). -/
def Obligations.FailedInitLeavesTheBlockAsItWas : Prop :=
  ∀ (ids : PerRole PinId) (gpio : PerRole BindAnswer) (s : State),
    BlockInv s → s.configured = false → s.phase = [] → s.hang = none → presentsEarly s = false → ¬ allSucceed gpio →
    ∃ t n u evs,
      execCall (.init ids gpio) s = .next t ∧ n ≤ 22 ∧ runSteps n t = .next u ∧ evs.length = n ∧ 1 ≤ n ∧
      (∀ ev ∈ evs, (∃ r, ev = .openPin r (ids.get r)) ∨ (∃ r, ev = .setOutput r)) ∧
      u = { s with trace := s.trace ++ evs, answer := some .initFailed, choices := u.choices }

/-- R77 (e), U14: the model admits every order of the binding calls that the spec allows, and every prefix of one, for
any answers of the GPIO collaborator. Made calls are in the trace whatever their answer (log 27). -/
def Obligations.EveryBindingOrderIsPossible : Prop :=
  ∀ (ids : PerRole PinId) (gpio : PerRole BindAnswer) (calls : List BindCall) (s : State) (ts : List Task),
    s.phase = .bindPins (newJob ids gpio) :: ts → s.hang = none → presentsEarly s = false →
    AllowedBinding gpio calls →
    ∃ ks u, ks.length = calls.length ∧ runWith ks s = .next u ∧
      u.trace = s.trace ++ calls.map (bindEvent (newJob ids gpio))

/-- R78, U11: once a binding call has failed the model admits both that `init` ends there, failed and with nothing bound,
and that any further allowed call is still to come. -/
def Obligations.FailedBindingMayEndOrGoOn : Prop :=
  ∀ (ids : PerRole PinId) (gpio : PerRole BindAnswer) (calls : List BindCall) (s : State) (ts : List Task),
    s.phase = .bindPins (newJob ids gpio) :: ts → s.hang = none → presentsEarly s = false →
    AllowedBinding gpio calls → (∃ c ∈ calls, bindCallFails gpio c = true) →
    (∃ ks u, ks.length = calls.length ∧ runWith ks s = .next u ∧
      u = { s with
            bind := everyRole none, phase := [], trace := s.trace ++ calls.map (bindEvent (newJob ids gpio)),
            answer := some .initFailed, choices := u.choices }) ∧
    (∀ c, AllowedBinding gpio (calls ++ [c]) →
      ∃ ks u j, ks.length = calls.length ∧ runWith ks s = .next u ∧ u.phase = .bindPins j :: ts ∧
        c ∈ enabledCalls j ∧ u.trace = s.trace ++ calls.map (bindEvent (newJob ids gpio)))

/-- R81: `clearDisplay` sends 0x001 in Configured, the flags untouched, and is a no-op in Unconfigured. -/
def Obligations.ClearDisplaySendsOneWord : Prop :=
  ∀ s : State,
    (Ready s → SendsWord s 0x001 (execCall .clearDisplay s)) ∧
    (s.configured = false → s.phase = [] →
      execCall .clearDisplay s = .next { s with answer := some (report .notConfigured) })

/-- R79, R80: in Configured each helper sends the word of its three flags and in Unconfigured it is a no-op; the
function-set word of a state that meets the invariant is one of four; every on/off-control word is reachable; the words of
the reset configuration are 0x038 and 0x00E. -/
def Obligations.HelpersSendTheConfigurationWords : Prop :=
  (∀ s : State,
    (Ready s →
      SendsWord s (32 + 16 * s.cfg.bitWidth.toNat + 8 * s.cfg.lineCount.toNat + 4 * s.cfg.font.toNat)
        (applyTextConfig s) ∧
      SendsWord s (8 + 4 * s.cfg.displayOn.toNat + 2 * s.cfg.cursorOn.toNat + s.cfg.cursorBlink.toNat)
        (applyDisplayConfig s)) ∧
    (s.configured = false → s.phase = [] →
      applyTextConfig s = .next { s with answer := some (report .notConfigured) } ∧
      applyDisplayConfig s = .next { s with answer := some (report .notConfigured) }) ∧
    (BlockInv s → textWordNumber s.cfg ∈ [0x030, 0x034, 0x038, 0x03C])) ∧
  (∀ d c b : Bool, ∃ program n u, runSteps n (freshBlock program none) = .next u ∧ u.configured = true ∧
    u.phase = [] ∧ displayWordNumber u.cfg = 8 + 4 * d.toNat + 2 * c.toNat + b.toNat) ∧
  textWordNumber Cfg.reset = 0x038 ∧ displayWordNumber Cfg.reset = 0x00E

/-- R82: `setCursorPosition` sends 128 plus the address, for every row and column: row forced to 0 in single-line mode
and clamped to 1, column clamped to 40, address at most 80; no flag changes and the position is not stored. -/
def Obligations.SetCursorPositionSendsTheClampedAddress : Prop :=
  ∀ (s : State) (row column : Nat), Ready s →
    SendsWord s (0x080 + (40 * (if s.cfg.lineCount then min row 1 else 0) + min column 40))
      (execCall (.setCursorPosition row column) s) ∧
    40 * (if s.cfg.lineCount then min row 1 else 0) + min column 40 ≤ 80

/-- R82 (a), S5: the clamp law. -/
def Obligations.CursorClampLaw : Prop :=
  ∀ (s : State) (row column : Nat),
    (1 < row → execCall (.setCursorPosition row column) s = execCall (.setCursorPosition 1 column) s) ∧
    (40 < column → execCall (.setCursorPosition row column) s = execCall (.setCursorPosition row 40) s) ∧
    (s.cfg.lineCount = false → execCall (.setCursorPosition row column) s = execCall (.setCursorPosition 0 column) s)

/-- R83: `write` sends one data word per code, in order, however long the text. -/
def Obligations.WriteSendsEachCodeInOrder : Prop :=
  ∀ (s : State) (text : List Byte), Ready s →
    SendsWords s s.cfg (text.map (fun b => 0x200 + b.toNat)) (execCall (.write text) s)

/-- R84: `writeLine` sends the codes and then 0x0A8, whatever the line mode. -/
def Obligations.WriteLineEndsAtAddressForty : Prop :=
  ∀ (s : State) (text : List Byte), Ready s →
    SendsWords s s.cfg (text.map (fun b => 0x200 + b.toNat) ++ [0x0A8]) (execCall (.writeLine text) s)

/-- R85 to R90: each display toggle writes its one flag and sends the on/off-control word of the three flags; in
Unconfigured it writes no flag and sends nothing, which is the spec's choice between two readings (D11, log 15). -/
def Obligations.DisplayTogglesWriteOneFlagAndSend : Prop :=
  ∀ (s : State),
    let toggles := fun (c : Call) (cfg : Cfg) =>
      (Ready s → SendsWords s cfg [8 + 4 * cfg.displayOn.toNat + 2 * cfg.cursorOn.toNat + cfg.cursorBlink.toNat]
        (execCall c s)) ∧
      (s.configured = false → s.phase = [] →
        execCall c s = .next { s with answer := some (report .notConfigured) })
    toggles .turnDisplayOn { s.cfg with displayOn := true } ∧
    toggles .turnDisplayOff { s.cfg with displayOn := false } ∧
    toggles .turnCursorOn { s.cfg with cursorOn := true } ∧
    toggles .turnCursorOff { s.cfg with cursorOn := false } ∧
    toggles .startCursorBlinking { s.cfg with cursorBlink := true } ∧
    toggles .stopCursorBlinking { s.cfg with cursorBlink := false }

/-- R91 to R95: each width, line and font toggle writes its one flag and sends the function-set word of the three; in
Unconfigured it writes no flag and sends nothing, which is the spec's choice between two readings (D11, log 15). -/
def Obligations.TextTogglesWriteOneFlagAndSend : Prop :=
  ∀ (s : State),
    let toggles := fun (c : Call) (cfg : Cfg) =>
      (Ready s → SendsWords s cfg [32 + 16 * cfg.bitWidth.toNat + 8 * cfg.lineCount.toNat + 4 * cfg.font.toNat]
        (execCall c s)) ∧
      (s.configured = false → s.phase = [] →
        execCall c s = .next { s with answer := some (report .notConfigured) })
    toggles .switchTo8BitMode { s.cfg with bitWidth := true } ∧
    (BlockInv s → { s.cfg with bitWidth := true } = s.cfg) ∧
    toggles .switchToDoubleLines { s.cfg with lineCount := true } ∧
    toggles .switchToSingleLines { s.cfg with lineCount := false } ∧
    toggles .switchTo5x8Font { s.cfg with font := false } ∧
    toggles .switchTo5x10Font { s.cfg with font := true }

/-- R130, R129, R74: the counts and the least time of a call other than `init` in Configured: 13 writes, 3 holds and 3
time units for each of its words. -/
def Obligations.CallCountsAndLeastTime : Prop :=
  ∀ (s : State) (c : Call), Ready s → isInit c = false → c.wf = true →
    ∃ t u evs, execCall c s = .next t ∧
      runSteps (16 * (callWordNumbers s.cfg c).length) t = .next u ∧ u.phase = [] ∧ u.trace = s.trace ++ evs ∧
      writeCount evs = 13 * (callWordNumbers s.cfg c).length ∧
      holdCount evs = 3 * (callWordNumbers s.cfg c).length ∧
      leastTime evs = 3 * (callWordNumbers s.cfg c).length * Config.tUnit

/-- R36, R50: a host that presents any calls but `init`, one after another, to a Configured block has their words
transmitted in program order and nothing else, the flags threaded through the toggles. -/
def Obligations.SessionTransmitsTheConcatenation : Prop :=
  ∀ (s : State) (calls : List Call),
    s.configured = true → s.phase = [] → s.hang = none →
    s.program = calls.map (fun c => ({ call := c, waits := true } : Request)) →
    (∀ c ∈ calls, isInit c = false ∧ c.wf = true) →
    ∃ n u evs, runSteps n s = .next u ∧
      u.phase = [] ∧ u.program = [] ∧ u.configured = true ∧ u.bind = s.bind ∧
      u.cfg = sessionCfg s.cfg calls ∧ u.trace = s.trace ++ evs ∧
      transmitted s.pin evs = (sessionWordNumbers s.cfg calls).map asWord

/-- R120, R36, R50: from reset, a successful `init` and any further calls but `init` transmit the five bring-up words
and then the words of the calls, in program order. -/
def Obligations.FreshSessionTransmitsBringUpThenCalls : Prop :=
  ∀ (ids : PerRole PinId) (gpio : PerRole BindAnswer) (calls : List Call),
    allSucceed gpio → (∀ c ∈ calls, isInit c = false ∧ c.wf = true) →
    ∃ n u, runSteps n (freshBlock
        ((Call.init ids gpio :: calls).map (fun c => ({ call := c, waits := true } : Request))) none) = .next u ∧
      u.phase = [] ∧ u.program = [] ∧ u.configured = true ∧ u.cfg = sessionCfg Cfg.reset calls ∧
      transmitted (everyRole .unknown) u.trace =
        ([0x001, 0x038, 0x00E, 0x006, 0x080] ++ sessionWordNumbers Cfg.reset calls).map asWord

/-! ### Rules about every step and every run -/

/-- R12: a step never clears `configured`, and sets it only as step 3 of `init`. -/
def Obligations.ConfiguredIsSetOnlyByInitAndNeverCleared : Prop :=
  ∀ s t : State, step s = .next t →
    (s.configured = true → t.configured = true) ∧
    (s.configured = false → t.configured = true → ∃ ts, s.phase = .markConfigured :: ts)

/-- R19, R96: a flag changes only by a toggle in Configured, and then as that toggle says; at most one flag differs. That
the step that changes it starts Idle and is the acceptance of the toggle is the model's choice (log 2). -/
def Obligations.FlagsChangeOnlyByToggles : Prop :=
  ∀ s t : State, step s = .next t → t.cfg ≠ s.cfg →
    s.configured = true ∧ s.phase = [] ∧
    ∃ q rest, s.program = q :: rest ∧ t.cfg = cfgAfterCall s.cfg q.call ∧
      ((∃ b, t.cfg = { s.cfg with displayOn := b }) ∨ (∃ b, t.cfg = { s.cfg with cursorOn := b }) ∨
       (∃ b, t.cfg = { s.cfg with cursorBlink := b }) ∨ (∃ b, t.cfg = { s.cfg with bitWidth := b }) ∨
       (∃ b, t.cfg = { s.cfg with lineCount := b }) ∨ (∃ b, t.cfg = { s.cfg with font := b }))

/-- R20: the binding of a Configured block never changes. -/
def Obligations.BindingIsImmutableOnceConfigured : Prop :=
  ∀ s t : State, BlockInv s → s.configured = true → step s = .next t → t.bind = s.bind

/-- R9, R21: the trace only grows, and the pins change exactly by the events added to it. That a step makes at most one
event, and an Idle block's step (which at most accepts a call) none, is the model's choice of step (log 2, D6). -/
def Obligations.EachStepEmitsAtMostOneEvent : Prop :=
  ∀ s t : State, step s = .next t →
    ∃ evs, evs.length ≤ 1 ∧ t.trace = s.trace ++ evs ∧ t.pin = pinsAfter s.pin evs ∧ (s.phase = [] → evs = [])

/-- R66, R67, R123: whatever the host presents and whatever the open choices are, the trace of every run follows the bus
protocol: bindings, the baseline, then transactions of ten writes, each role once, and the strobe. -/
def Obligations.EveryRunFollowsTheBusProtocol : Prop :=
  ∀ (program : List Request) (hang : Option Nat) (n : Nat) (s : State),
    runSteps n (freshBlock program hang) = .next s → ∃ m, watch .binding s.trace = some m

/-- R75: in every run, Enable is low in Configured whenever the block is Idle, and high only from the second
`Write(E, ...)` of a strobe to the third. -/
def Obligations.EnableIsHighOnlyInTheSecondHold : Prop :=
  ∀ (program : List Request) (hang : Option Nat) (n : Nat) (s : State),
    runSteps n (freshBlock program hang) = .next s →
    (s.configured = true → s.phase = [] → s.pin.e = .low) ∧
    (s.pin.e = .high → watch .binding s.trace = some .raised ∨ watch .binding s.trace = some .held2)

/-- R69, R123, R68: from the end of a pin phase to the end of the third hold no step changes one of the ten lines. -/
def Obligations.LinesAreSteadyDuringTheStrobe : Prop :=
  ∀ (s t : State) (m : Watch), BlockInv s → step s = .next t → watch .binding s.trace = some m →
    (m = .load [] ∨ m = .low1 ∨ m = .held1 ∨ m = .raised ∨ m = .held2 ∨ m = .low2) →
    ∀ r, r ≠ .e → t.pin.get r = s.pin.get r

/-- R21, R11: in every run that has reached Configured and is Idle, every one of the eleven levels is known and every
role is bound. -/
def Obligations.ConfiguredIdleBlockIsFullyKnown : Prop :=
  ∀ (program : List Request) (hang : Option Nat) (n : Nat) (s : State),
    runSteps n (freshBlock program hang) = .next s → s.configured = true → s.phase = [] →
    ∀ r, s.pin.get r ≠ .unknown ∧ (s.bind.get r).isSome = true

/-- R128, R76, S7: a host that never calls `init` never has an event emitted, a flag changed or a pin bound. -/
def Obligations.WithoutInitNothingEverHappens : Prop :=
  ∀ (program : List Request) (hang : Option Nat) (n : Nat) (s : State),
    (∀ q ∈ program, isInit q.call = false) → runSteps n (freshBlock program hang) = .next s →
    s.trace = [] ∧ s.cfg = Cfg.reset ∧ s.configured = false ∧ s.bind = everyRole none ∧ s.phase = []

/-- R115, D29: a step stops with the fault of a call that never returns only while a call runs and `hang` has run out,
and then whenever the phase has a call out to make: a write, a hold, a pin write of a pin phase, a binding call. -/
def Obligations.MachineIsStuckOnlyInACallThatNeverReturns : Prop :=
  (∀ (s : State) (f : Fault), step s = .fault f → s.phase ≠ [] ∧ s.hang = some 0) ∧
  (∀ (s : State) (t : Task) (ts : List Task), s.phase = t :: ts → s.hang = some 0 → presentsEarly s = false →
    (∀ r v, t = .write r v → step s = .fault (.callNeverReturns (.write r v))) ∧
    (t = .hold → step s = .fault (.callNeverReturns .hold)) ∧
    (∀ w r rest, t = .pins w (r :: rest) →
      ∃ q, q ∈ r :: rest ∧ step s = .fault (.callNeverReturns (.write q (wordBit w q)))) ∧
    (∀ j, t = .bindPins j → enabledCalls j ≠ [] →
      ∃ c, c ∈ enabledCalls j ∧ step s = .fault (.callNeverReturns (bindEvent j c))))

/-- R100, R121, R77 (d), R53: a step is refused only for an operation presented while another call runs, for `init` in
Configured, or for an encoder argument wider than its field. -/
def Obligations.StepsAreRefusedOnlyOutsideTheContract : Prop :=
  ∀ (s : State) (r : Refusal), step s = .refused r →
    ∃ q rest, s.program = q :: rest ∧
      ((r = .operationWhileRunning ∧ s.phase ≠ [] ∧ q.waits = false ∧ ∀ e, q.call ≠ .encode e) ∨
       (r = .initWhileConfigured ∧ s.phase = [] ∧ isInit q.call = true ∧ s.configured = true) ∨
       (r = .encoderArgumentOutOfRange ∧ (s.phase = [] ∨ q.waits = false) ∧ q.call.wf = false))

/-- R72, R112: when every call out returns and the host waits, a running call returns, whatever the open choices are. -/
def Obligations.EveryRunningCallReturns : Prop :=
  ∀ s : State, s.hang = none → presentsEarly s = false →
    ∃ n u, runSteps n s = .next u ∧ (s.phase ≠ [] → u.phase = [] ∧ u.answer ≠ none) ∧ u.program = s.program
end

