-- ==== Sys2Proof/Laws/Operands.lean ====
section
/-! SUPPORT. Reading after writing one role, the choice of a list element, and the cursor's range. -/
namespace Sys2Proof

/-- R21: a write reads back. -/
@[simp] theorem PerRole.get_set_self {α : Type} (p : PerRole α) (r : Role) (a : α) : (p.set r a).get r = a := by
  cases r <;> rfl

/-- A write leaves every other role alone. -/
theorem PerRole.get_set_ne {α : Type} (p : PerRole α) {r q : Role} (a : α) (h : q ≠ r) :
    (p.set r a).get q = p.get q := by
  cases r <;> cases q <;> first | rfl | exact absurd rfl h

/-- Reading any role after a write. -/
theorem PerRole.get_set {α : Type} (p : PerRole α) (r q : Role) (a : α) :
    (p.set r a).get q = if q = r then a else p.get q := by
  by_cases h : q = r
  · subst h; simp
  · simp [PerRole.get_set_ne p a h, h]

/-- Two records that agree on every role are equal. -/
theorem PerRole.ext_get {α : Type} {p q : PerRole α} (h : ∀ r, p.get r = q.get r) : p = q := by
  cases p; cases q
  simpa [PerRole.get] using ⟨h .rs, h .rw, h .e, h .d7, h .d6, h .d5, h .d4, h .d3, h .d2, h .d1, h .d0⟩

namespace Machine

@[simp] theorem everyRole_get {α : Type} (a : α) (r : Role) : (everyRole a).get r = a := by cases r <;> rfl

theorem allRoles_nodup : allRoles.Nodup := by decide

theorem mem_allRoles (r : Role) : r ∈ allRoles := by cases r <;> decide

theorem wordRoles_nodup : wordRoles.Nodup := by decide

/-- Every role but Enable carries a word bit (R41). -/
theorem mem_wordRoles {r : Role} : r ∈ wordRoles ↔ r ≠ .e := by cases r <;> decide

/-- A choice from a list that is not empty answers an element of it and the list without it, at one place. -/
theorem pick_eq_some {α : Type} {k : Nat} {l : List α} (h : l ≠ []) :
    ∃ a before after, pick k l = some (a, before ++ after) ∧ l = before ++ a :: after := by
  have hk : k % l.length < l.length := Nat.mod_lt _ (List.length_pos_iff.mpr h)
  refine ⟨l[k % l.length], l.take (k % l.length), l.drop (k % l.length + 1), ?_, ?_⟩
  · simp [pick, List.getElem?_eq_getElem hk, List.eraseIdx_eq_take_drop_succ]
  · simp

@[simp] theorem pick_nil {α : Type} (k : Nat) : pick k ([] : List α) = none := by simp [pick]

/-- Every element can be chosen. -/
theorem pick_index {α : Type} (before after : List α) (a : α) :
    pick before.length (before ++ a :: after) = some (a, before ++ after) := by
  have h : before.length % (before ++ a :: after).length = before.length := Nat.mod_eq_of_lt (by simp)
  unfold pick
  rw [h]
  simp [List.eraseIdx_append_of_length_le]

/-- R82 (b), R97: the address is at most 80. -/
theorem cursorAddress_le (cfg : Cfg) (row column : Nat) : cursorAddress cfg row column ≤ 80 := by
  simp only [cursorAddress, clampRow, clampColumn, lineStride, rowMax, colMax]
  omega

end Machine
end Sys2Proof
end

