-- ==== Sys2Proof/Laws/State.lean ====
section
/-! SUPPORT. One lemma per field and update of the state, so that no proof unfolds a record update. -/
namespace Sys2Proof.Machine

@[simp] theorem record_configured (ev : Event) (s : State) : (record ev s).configured = s.configured := rfl
@[simp] theorem record_cfg (ev : Event) (s : State) : (record ev s).cfg = s.cfg := rfl
@[simp] theorem record_bind (ev : Event) (s : State) : (record ev s).bind = s.bind := rfl
@[simp] theorem record_pin (ev : Event) (s : State) : (record ev s).pin = s.pin := rfl
@[simp] theorem record_phase (ev : Event) (s : State) : (record ev s).phase = s.phase := rfl
@[simp] theorem record_trace (ev : Event) (s : State) : (record ev s).trace = s.trace ++ [ev] := rfl
@[simp] theorem record_answer (ev : Event) (s : State) : (record ev s).answer = s.answer := rfl
@[simp] theorem record_program (ev : Event) (s : State) : (record ev s).program = s.program := rfl
@[simp] theorem record_encoded (ev : Event) (s : State) : (record ev s).encoded = s.encoded := rfl
@[simp] theorem record_hang (ev : Event) (s : State) : (record ev s).hang = s.hang.map Nat.pred := rfl
@[simp] theorem record_choices (ev : Event) (s : State) : (record ev s).choices = s.choices := rfl

@[simp] theorem setPin_configured (r : Role) (v : Bool) (s : State) : (setPin r v s).configured = s.configured := rfl
@[simp] theorem setPin_cfg (r : Role) (v : Bool) (s : State) : (setPin r v s).cfg = s.cfg := rfl
@[simp] theorem setPin_bind (r : Role) (v : Bool) (s : State) : (setPin r v s).bind = s.bind := rfl
@[simp] theorem setPin_pin (r : Role) (v : Bool) (s : State) : (setPin r v s).pin = s.pin.set r (levelOf v) := rfl
@[simp] theorem setPin_phase (r : Role) (v : Bool) (s : State) : (setPin r v s).phase = s.phase := rfl
@[simp] theorem setPin_trace (r : Role) (v : Bool) (s : State) : (setPin r v s).trace = s.trace := rfl
@[simp] theorem setPin_answer (r : Role) (v : Bool) (s : State) : (setPin r v s).answer = s.answer := rfl
@[simp] theorem setPin_program (r : Role) (v : Bool) (s : State) : (setPin r v s).program = s.program := rfl
@[simp] theorem setPin_encoded (r : Role) (v : Bool) (s : State) : (setPin r v s).encoded = s.encoded := rfl
@[simp] theorem setPin_hang (r : Role) (v : Bool) (s : State) : (setPin r v s).hang = s.hang := rfl
@[simp] theorem setPin_choices (r : Role) (v : Bool) (s : State) : (setPin r v s).choices = s.choices := rfl

@[simp] theorem tookChoice_configured (s : State) : (tookChoice s).configured = s.configured := rfl
@[simp] theorem tookChoice_cfg (s : State) : (tookChoice s).cfg = s.cfg := rfl
@[simp] theorem tookChoice_bind (s : State) : (tookChoice s).bind = s.bind := rfl
@[simp] theorem tookChoice_pin (s : State) : (tookChoice s).pin = s.pin := rfl
@[simp] theorem tookChoice_phase (s : State) : (tookChoice s).phase = s.phase := rfl
@[simp] theorem tookChoice_trace (s : State) : (tookChoice s).trace = s.trace := rfl
@[simp] theorem tookChoice_answer (s : State) : (tookChoice s).answer = s.answer := rfl
@[simp] theorem tookChoice_program (s : State) : (tookChoice s).program = s.program := rfl
@[simp] theorem tookChoice_encoded (s : State) : (tookChoice s).encoded = s.encoded := rfl
@[simp] theorem tookChoice_hang (s : State) : (tookChoice s).hang = s.hang := rfl
@[simp] theorem tookChoice_choices (s : State) : (tookChoice s).choices = s.choices + 1 := rfl

@[simp] theorem returned_configured (a : Answer) (s : State) : (returned a s).configured = s.configured := rfl
@[simp] theorem returned_cfg (a : Answer) (s : State) : (returned a s).cfg = s.cfg := rfl
@[simp] theorem returned_bind (a : Answer) (s : State) : (returned a s).bind = s.bind := rfl
@[simp] theorem returned_pin (a : Answer) (s : State) : (returned a s).pin = s.pin := rfl
@[simp] theorem returned_phase (a : Answer) (s : State) : (returned a s).phase = [] := rfl
@[simp] theorem returned_trace (a : Answer) (s : State) : (returned a s).trace = s.trace := rfl
@[simp] theorem returned_answer (a : Answer) (s : State) : (returned a s).answer = some a := rfl
@[simp] theorem returned_program (a : Answer) (s : State) : (returned a s).program = s.program := rfl
@[simp] theorem returned_encoded (a : Answer) (s : State) : (returned a s).encoded = s.encoded := rfl
@[simp] theorem returned_hang (a : Answer) (s : State) : (returned a s).hang = s.hang := rfl
@[simp] theorem returned_choices (a : Answer) (s : State) : (returned a s).choices = s.choices := rfl

@[simp] theorem silentNoOp_configured (a : Answer) (s : State) : (silentNoOp a s).configured = s.configured := rfl
@[simp] theorem silentNoOp_cfg (a : Answer) (s : State) : (silentNoOp a s).cfg = s.cfg := rfl
@[simp] theorem silentNoOp_bind (a : Answer) (s : State) : (silentNoOp a s).bind = s.bind := rfl
@[simp] theorem silentNoOp_pin (a : Answer) (s : State) : (silentNoOp a s).pin = s.pin := rfl
@[simp] theorem silentNoOp_phase (a : Answer) (s : State) : (silentNoOp a s).phase = s.phase := rfl
@[simp] theorem silentNoOp_trace (a : Answer) (s : State) : (silentNoOp a s).trace = s.trace := rfl
@[simp] theorem silentNoOp_answer (a : Answer) (s : State) : (silentNoOp a s).answer = some (report a) := rfl
@[simp] theorem silentNoOp_program (a : Answer) (s : State) : (silentNoOp a s).program = s.program := rfl
@[simp] theorem silentNoOp_encoded (a : Answer) (s : State) : (silentNoOp a s).encoded = s.encoded := rfl
@[simp] theorem silentNoOp_hang (a : Answer) (s : State) : (silentNoOp a s).hang = s.hang := rfl
@[simp] theorem silentNoOp_choices (a : Answer) (s : State) : (silentNoOp a s).choices = s.choices := rfl

@[simp] theorem failInit_configured (s : State) : (failInit s).configured = s.configured := rfl
@[simp] theorem failInit_cfg (s : State) : (failInit s).cfg = s.cfg := rfl
@[simp] theorem failInit_bind (s : State) : (failInit s).bind = everyRole none := rfl
@[simp] theorem failInit_pin (s : State) : (failInit s).pin = s.pin := rfl
@[simp] theorem failInit_phase (s : State) : (failInit s).phase = [] := rfl
@[simp] theorem failInit_trace (s : State) : (failInit s).trace = s.trace := rfl
@[simp] theorem failInit_answer (s : State) : (failInit s).answer = some .initFailed := rfl
@[simp] theorem failInit_program (s : State) : (failInit s).program = s.program := rfl
@[simp] theorem failInit_encoded (s : State) : (failInit s).encoded = s.encoded := rfl
@[simp] theorem failInit_hang (s : State) : (failInit s).hang = s.hang := rfl
@[simp] theorem failInit_choices (s : State) : (failInit s).choices = s.choices := rfl

@[simp] theorem continueWith_configured (ts : List Task) (s : State) : (continueWith ts s).configured = s.configured := by cases ts <;> rfl
@[simp] theorem continueWith_cfg (ts : List Task) (s : State) : (continueWith ts s).cfg = s.cfg := by cases ts <;> rfl
@[simp] theorem continueWith_bind (ts : List Task) (s : State) : (continueWith ts s).bind = s.bind := by cases ts <;> rfl
@[simp] theorem continueWith_pin (ts : List Task) (s : State) : (continueWith ts s).pin = s.pin := by cases ts <;> rfl
@[simp] theorem continueWith_phase (ts : List Task) (s : State) : (continueWith ts s).phase = ts := by cases ts <;> rfl
@[simp] theorem continueWith_trace (ts : List Task) (s : State) : (continueWith ts s).trace = s.trace := by cases ts <;> rfl
@[simp] theorem continueWith_program (ts : List Task) (s : State) : (continueWith ts s).program = s.program := by cases ts <;> rfl
@[simp] theorem continueWith_encoded (ts : List Task) (s : State) : (continueWith ts s).encoded = s.encoded := by cases ts <;> rfl
@[simp] theorem continueWith_hang (ts : List Task) (s : State) : (continueWith ts s).hang = s.hang := by cases ts <;> rfl
@[simp] theorem continueWith_choices (ts : List Task) (s : State) : (continueWith ts s).choices = s.choices := by cases ts <;> rfl

@[simp] theorem startWords_configured (ws : List Word) (s : State) : (startWords ws s).configured = s.configured := by cases ws <;> rfl
@[simp] theorem startWords_cfg (ws : List Word) (s : State) : (startWords ws s).cfg = s.cfg := by cases ws <;> rfl
@[simp] theorem startWords_bind (ws : List Word) (s : State) : (startWords ws s).bind = s.bind := by cases ws <;> rfl
@[simp] theorem startWords_pin (ws : List Word) (s : State) : (startWords ws s).pin = s.pin := by cases ws <;> rfl
@[simp] theorem startWords_phase (ws : List Word) (s : State) : (startWords ws s).phase = transactions ws := by cases ws <;> rfl
@[simp] theorem startWords_trace (ws : List Word) (s : State) : (startWords ws s).trace = s.trace := by cases ws <;> rfl
@[simp] theorem startWords_program (ws : List Word) (s : State) : (startWords ws s).program = s.program := by cases ws <;> rfl
@[simp] theorem startWords_encoded (ws : List Word) (s : State) : (startWords ws s).encoded = s.encoded := by cases ws <;> rfl
@[simp] theorem startWords_hang (ws : List Word) (s : State) : (startWords ws s).hang = s.hang := by cases ws <;> rfl
@[simp] theorem startWords_choices (ws : List Word) (s : State) : (startWords ws s).choices = s.choices := by cases ws <;> rfl

/-- The answer once the tasks `ts` are left. -/
@[simp] theorem continueWith_answer_nil (s : State) : (continueWith [] s).answer = some (report .ok) := rfl
@[simp] theorem continueWith_answer_cons (t : Task) (ts : List Task) (s : State) :
    (continueWith (t :: ts) s).answer = s.answer := rfl
theorem continueWith_cons (t : Task) (ts : List Task) (s : State) :
    continueWith (t :: ts) s = { s with phase := t :: ts } := rfl
theorem continueWith_nil (s : State) : continueWith [] s = returned (report .ok) s := rfl

/-- Starting some words, at least one. -/
@[simp] theorem startWords_answer_cons (w : Word) (ws : List Word) (s : State) :
    (startWords (w :: ws) s).answer = none := rfl
@[simp] theorem startWords_answer_nil (s : State) : (startWords [] s).answer = some (report .ok) := rfl
theorem startWords_cons (w : Word) (ws : List Word) (s : State) :
    startWords (w :: ws) s = { s with phase := transactions (w :: ws), answer := none } := rfl
theorem startWords_nil (s : State) : startWords [] s = returned (report .ok) s := rfl

/-- What placing a table word changes. -/
@[simp] theorem withFetchWord_phase (s : State) (n w : Nat) : (s.withFetchWord n w).phase = [] := rfl
@[simp] theorem withFetchWord_program (s : State) (n w : Nat) :
    (s.withFetchWord n w).program = tableRequest n w :: s.program := rfl

end Sys2Proof.Machine
end

