-- ==== Sys2Proof/Laws/Words.lean ====
section
/-! SUPPORT. The two views of a word, and the checks of WellFormed. -/
namespace Sys2Proof

/-- R7: the two views of a word agree. -/
@[simp] theorem wordOfSeq?_seqOfWord (w : Word) : wordOfSeq? (seqOfWord w) = some w := by
  simp only [wordOfSeq?, seqOfWord, Option.some.injEq]
  apply BitVec.eq_of_getLsbD_eq
  intro i hi
  have hb : ∀ (p : Bool) (k j : Nat), j < 10 → k < 10 → (b2i p <<< k).getLsbD j = (p && decide (j = k)) := by
    intro p k j hj hk
    interval_cases j <;> interval_cases k <;> cases p <;> decide
  have h0 : ∀ p : Bool, b2i p = b2i p <<< 0 := by intro p; simp
  rw [h0 (w.getLsbD 0)]
  simp only [BitVec.getLsbD_or, hb _ _ _ hi, Nat.lt_add_one, Nat.reduceLT]
  interval_cases i <;> simp

@[simp] theorem seqOfWord_length (w : Word) : (seqOfWord w).length = 10 := rfl

/-- R65: the numeric view exists for exactly the sequences of ten bits. -/
theorem wordOfSeq?_isSome_iff (bits : List Bool) : (wordOfSeq? bits).isSome = true ↔ bits.length = 10 := by
  constructor
  · intro h
    unfold wordOfSeq? at h
    split at h
    · rfl
    · simp at h
  · intro h
    match bits, h with
    | [_, _, _, _, _, _, _, _, _, _], _ => rfl

theorem wordOfSeq?_eq_none_iff (bits : List Bool) : wordOfSeq? bits = none ↔ bits.length ≠ 10 := by
  rw [ne_eq, ← wordOfSeq?_isSome_iff]
  cases wordOfSeq? bits <;> simp

/-- R7: a sequence of ten bits is the sequence view of its word. -/
theorem seqOfWord_of_wordOfSeq? {bits : List Bool} {w : Word} (h : wordOfSeq? bits = some w) :
    seqOfWord w = bits := by
  match bits, (wordOfSeq?_isSome_iff bits).mp (by simp [h]) with
  | [a9, a8, a7, a6, a5, a4, a3, a2, a1, a0], _ =>
    simp only [wordOfSeq?, Option.some.injEq] at h
    subst h
    cases a9 <;> cases a8 <;> cases a7 <;> cases a6 <;> cases a5 <;>
      cases a4 <;> cases a3 <;> cases a2 <;> cases a1 <;> cases a0 <;> rfl

/-- R53: the types of an instruction keep its arguments in range. -/
theorem Instr.wf_of_types (i : Instr) : i.wf = true := by
  cases i <;>
    simp [Instr.wf, Instr.toCommand, Command.wf, cgramAddressInRange, ddramAddressInRange, dataInRange] <;> omega

/-- R53: exactly the calls whose arguments fit have a typed instruction. -/
theorem Command.narrow_isSome_iff (c : Command) : c.narrow.isSome = true ↔ c.wf = true := by
  cases c <;> simp [Command.narrow, Command.wf]

/-- A typed instruction is the typed instruction of its own call. -/
theorem Command.narrow_toCommand (i : Instr) : i.toCommand.narrow = some i := by
  cases i <;>
    simp [Instr.toCommand, Command.narrow, cgramAddressInRange, ddramAddressInRange, dataInRange] <;> omega

end Sys2Proof
end

