-- ==== Sys2Proof/Laws/Ops.lean ====
section
/-! SUPPORT. What each shared operation answers: one lemma per case, cited in place of the definition. -/
namespace Sys2Proof.Machine

/-! ### The two tests at the head of an operation -/

theorem whenIdle_idle {s : State} (h : s.phase = []) (k : Result) : whenIdle s k = k := by simp [whenIdle, h]

theorem whenIdle_running {s : State} (h : s.phase ≠ []) (k : Result) :
    whenIdle s k = .refused .operationWhileRunning := by simp [whenIdle, h]

theorem whenConfigured_running {s : State} (h : s.phase ≠ []) (k : Result) :
    whenConfigured s k = .refused .operationWhileRunning := whenIdle_running h _

theorem whenConfigured_unconfigured {s : State} (hi : s.phase = []) (hc : s.configured = false) (k : Result) :
    whenConfigured s k = .next (silentNoOp .notConfigured s) := by
  simp [whenConfigured, whenIdle_idle hi, hc]

theorem whenConfigured_ready {s : State} (hi : s.phase = []) (hc : s.configured = true) (k : Result) :
    whenConfigured s k = k := by
  simp [whenConfigured, whenIdle_idle hi, hc]

/-- Everything an operation behind the two tests can answer. -/
theorem whenConfigured_cases (s : State) (k : Result) :
    (s.phase ≠ [] ∧ whenConfigured s k = .refused .operationWhileRunning) ∨
    (s.phase = [] ∧ s.configured = false ∧ whenConfigured s k = .next (silentNoOp .notConfigured s)) ∨
    (s.phase = [] ∧ s.configured = true ∧ whenConfigured s k = k) := by
  by_cases hi : s.phase = []
  · cases hc : s.configured
    · exact .inr (.inl ⟨hi, rfl, whenConfigured_unconfigured hi hc k⟩)
    · exact .inr (.inr ⟨hi, rfl, whenConfigured_ready hi hc k⟩)
  · exact .inl ⟨hi, whenConfigured_running hi k⟩

/-! ### Send -/

/-- R65: a word in Configured. -/
theorem sendWord_ready {s : State} (hi : s.phase = []) (hc : s.configured = true) (w : Word) :
    sendWord w s = .next (startWords [w] s) := by
  simp [sendWord, send, whenConfigured_ready hi hc]

/-- R65, R102: a word in Unconfigured. -/
theorem sendWord_unconfigured {s : State} (hi : s.phase = []) (hc : s.configured = false) (w : Word) :
    sendWord w s = .next (silentNoOp .notConfigured s) := whenConfigured_unconfigured hi hc _

/-- R121: a word while a call runs. -/
theorem sendWord_running {s : State} (hi : s.phase ≠ []) (w : Word) :
    sendWord w s = .refused .operationWhileRunning := whenConfigured_running hi _

/-- Everything `Send` of a word can answer. -/
theorem sendWord_cases (w : Word) (s : State) :
    (s.phase ≠ [] ∧ sendWord w s = .refused .operationWhileRunning) ∨
    (s.phase = [] ∧ s.configured = false ∧ sendWord w s = .next (silentNoOp .notConfigured s)) ∨
    (s.phase = [] ∧ s.configured = true ∧ sendWord w s = .next (startWords [w] s)) := by
  by_cases hi : s.phase = []
  · cases hc : s.configured
    · exact .inr (.inl ⟨hi, rfl, sendWord_unconfigured hi hc w⟩)
    · exact .inr (.inr ⟨hi, rfl, sendWord_ready hi hc w⟩)
  · exact .inl ⟨hi, sendWord_running hi w⟩

/-- R101: a sequence whose length is not 10, in Configured. -/
theorem send_malformed {s : State} (hi : s.phase = []) (hc : s.configured = true) {bits : List Bool}
    (hl : bits.length ≠ 10) : send bits s = .next (silentNoOp .invalidInstructionLength s) := by
  simp [send, whenConfigured_ready hi hc, (wordOfSeq?_eq_none_iff bits).mpr hl]

/-- `Send` of the ten bits of a word is `Send` of the word. -/
theorem send_of_word {bits : List Bool} {w : Word} (h : wordOfSeq? bits = some w) (s : State) :
    send bits s = sendWord w s := by
  rw [sendWord, seqOfWord_of_wordOfSeq? h]

/-- R79: the helper is the `Send` of its word. -/
theorem applyTextConfig_eq (s : State) : applyTextConfig s = sendWord (textConfigWord s.cfg) s := by
  rcases whenConfigured_cases s (sendWord (textConfigWord s.cfg) s) with ⟨h, e⟩ | ⟨h, hc, e⟩ | ⟨_, _, e⟩
  · rw [applyTextConfig, e, sendWord_running h]
  · rw [applyTextConfig, e, sendWord_unconfigured h hc]
  · rw [applyTextConfig, e]

/-- R80: the helper is the `Send` of its word. -/
theorem applyDisplayConfig_eq (s : State) : applyDisplayConfig s = sendWord (displayConfigWord s.cfg) s := by
  rcases whenConfigured_cases s (sendWord (displayConfigWord s.cfg) s) with ⟨h, e⟩ | ⟨h, hc, e⟩ | ⟨_, _, e⟩
  · rw [applyDisplayConfig, e, sendWord_running h]
  · rw [applyDisplayConfig, e, sendWord_unconfigured h hc]
  · rw [applyDisplayConfig, e]

/-! ### Calls out -/

theorem callOut_returns {s : State} (h : s.hang ≠ some 0) (ev : Event) (f : State → State) :
    callOut ev s f = .next (f (record ev s)) := by simp [callOut, h]

theorem callOut_hangs {s : State} (h : s.hang = some 0) (ev : Event) (f : State → State) :
    callOut ev s f = .fault (.callNeverReturns ev) := by simp [callOut, h]

theorem callOut_eq_next {s t : State} {ev : Event} {f : State → State} :
    callOut ev s f = .next t ↔ s.hang ≠ some 0 ∧ t = f (record ev s) := by
  by_cases h : s.hang = some 0
  · simp [callOut, h]
  · simp [callOut, h, eq_comm]

theorem callOut_eq_fault {s : State} {ev : Event} {f : State → State} {e : Fault} :
    callOut ev s f = .fault e ↔ s.hang = some 0 ∧ e = .callNeverReturns ev := by
  by_cases h : s.hang = some 0
  · simp [callOut, h, eq_comm]
  · simp [callOut, h]

theorem callOut_ne_refused (s : State) (ev : Event) (f : State → State) (r : Refusal) :
    callOut ev s f ≠ .refused r := by
  by_cases h : s.hang = some 0 <;> simp [callOut, h]

@[simp] theorem record_of_returns {s : State} (h : s.hang = none) (ev : Event) : (record ev s).hang = none := by
  simp [h]

/-! ### Transactions -/

@[simp] theorem transactions_nil : transactions [] = [] := rfl

@[simp] theorem transactions_cons (w : Word) (ws : List Word) :
    transactions (w :: ws) = transaction w ++ transactions ws := rfl

theorem transaction_ne_nil (w : Word) : transaction w ≠ [] := by simp [transaction]

end Sys2Proof.Machine
end

