-- ==== Sys2Proof/Laws/Sequencer.lean ====
section
/-! SUPPORT. What one task of the sequencer answers: the next state where the call out returns, by task. -/
namespace Sys2Proof.Machine

theorem runTask_write (k : Choice) (r : Role) (v : Bool) (ts : List Task) {s : State} (h : s.hang ≠ some 0) :
    runTask k (.write r v) ts s = .next (continueWith ts (setPin r v (record (.write r v) s))) := by
  simp [runTask, callOut_returns h]

theorem runTask_hold (k : Choice) (ts : List Task) {s : State} (h : s.hang ≠ some 0) :
    runTask k .hold ts s = .next (continueWith ts (record .hold s)) := by
  simp [runTask, callOut_returns h]

theorem runTask_markConfigured (k : Choice) (ts : List Task) (s : State) :
    runTask k .markConfigured ts s = .next (continueWith ts { s with configured := true }) := rfl

/-- R66: a pin phase writes one of the roles that are left. -/
theorem runTask_pins (k : Choice) (w : Word) (left : List Role) (ts : List Task) {s : State}
    (h : s.hang ≠ some 0) (hl : left ≠ []) :
    ∃ r before after, left = before ++ r :: after ∧
      runTask k (.pins w left) ts s = .next (continueWith (afterPin w (before ++ after) ts)
        (tookChoice (setPin r (wordBit w r) (record (.write r (wordBit w r)) s)))) := by
  obtain ⟨r, before, after, hp, he⟩ := pick_eq_some (k := k.pinWrite) hl
  exact ⟨r, before, after, he, by simp [runTask, pinStep, hp, callOut_returns h]⟩

/-- R77 (e): a binding makes one of the calls that are enabled. -/
theorem runTask_bindPins (k : Choice) (j : BindJob) (ts : List Task) {s : State}
    (h : s.hang ≠ some 0) (hl : enabledCalls j ≠ []) :
    ∃ c, c ∈ enabledCalls j ∧
      runTask k (.bindPins j) ts s = .next (bindGoesOn k.stop (answeredJob j c) ts
        (tookChoice { record (bindEvent j c) s with bind := bindAfter j c s.bind })) := by
  obtain ⟨c, before, after, hp, he⟩ := pick_eq_some (k := k.bindCall) hl
  exact ⟨c, by simp [he], by simp [runTask, bindStep, hp, callOut_returns h]⟩

/-- Everything a task can answer when it answers a next state. -/
theorem runTask_cases {k : Choice} {t : Task} {ts : List Task} {s u : State} (h : runTask k t ts s = .next u) :
    (∃ j, t = .bindPins j ∧ enabledCalls j = [] ∧ u = bindGoesOn k.stop j ts s) ∨
    (∃ j c, t = .bindPins j ∧ c ∈ enabledCalls j ∧ s.hang ≠ some 0 ∧
      u = bindGoesOn k.stop (answeredJob j c) ts
        (tookChoice { record (bindEvent j c) s with bind := bindAfter j c s.bind })) ∨
    (∃ w, t = .pins w [] ∧ u = continueWith ts s) ∨
    (∃ w r before after, t = .pins w (before ++ r :: after) ∧ s.hang ≠ some 0 ∧
      u = continueWith (afterPin w (before ++ after) ts)
        (tookChoice (setPin r (wordBit w r) (record (.write r (wordBit w r)) s)))) ∨
    (∃ r v, t = .write r v ∧ s.hang ≠ some 0 ∧ u = continueWith ts (setPin r v (record (.write r v) s))) ∨
    (t = .hold ∧ s.hang ≠ some 0 ∧ u = continueWith ts (record .hold s)) ∨
    (t = .markConfigured ∧ u = continueWith ts { s with configured := true }) := by
  cases t with
  | bindPins j =>
    by_cases hl : enabledCalls j = []
    · exact .inl ⟨j, rfl, hl, by simpa [runTask, bindStep, hl, eq_comm] using h⟩
    · obtain ⟨c, before, after, hp, he⟩ := pick_eq_some (k := k.bindCall) hl
      simp only [runTask, bindStep, hp, callOut_eq_next] at h
      exact .inr (.inl ⟨j, c, rfl, by simp [he], h.1, by simpa using h.2⟩)
  | pins w left =>
    by_cases hl : left = []
    · subst hl
      exact .inr (.inr (.inl ⟨w, rfl, by simpa [runTask, pinStep, eq_comm] using h⟩))
    · obtain ⟨r, before, after, hp, he⟩ := pick_eq_some (k := k.pinWrite) hl
      simp only [runTask, pinStep, hp, callOut_eq_next] at h
      exact .inr (.inr (.inr (.inl ⟨w, r, before, after, by rw [he], h.1, h.2⟩)))
  | write r v =>
    simp only [runTask, callOut_eq_next] at h
    exact .inr (.inr (.inr (.inr (.inl ⟨r, v, rfl, h.1, h.2⟩))))
  | hold =>
    simp only [runTask, callOut_eq_next] at h
    exact .inr (.inr (.inr (.inr (.inr (.inl ⟨rfl, h.1, h.2⟩)))))
  | markConfigured =>
    exact .inr (.inr (.inr (.inr (.inr (.inr ⟨rfl, by simpa [runTask, eq_comm] using h⟩)))))

/-- No task is refused. -/
theorem runTask_ne_refused (k : Choice) (t : Task) (ts : List Task) (s : State) (r : Refusal) :
    runTask k t ts s ≠ .refused r := by
  cases t with
  | bindPins j =>
    by_cases hl : enabledCalls j = []
    · simp [runTask, bindStep, hl]
    · obtain ⟨c, before, after, hp, _⟩ := pick_eq_some (k := k.bindCall) hl
      simp only [runTask, bindStep, hp]
      exact callOut_ne_refused _ _ _ _
  | pins w left =>
    by_cases hl : left = []
    · simp [runTask, pinStep, hl]
    · obtain ⟨c, before, after, hp, _⟩ := pick_eq_some (k := k.pinWrite) hl
      simp only [runTask, pinStep, hp]
      exact callOut_ne_refused _ _ _ _
  | write r v => simp only [runTask]; exact callOut_ne_refused _ _ _ _
  | hold => simp only [runTask]; exact callOut_ne_refused _ _ _ _
  | markConfigured => simp [runTask]

/-- A task stops with a fault only in a call out that never returns. -/
theorem runTask_fault {k : Choice} {t : Task} {ts : List Task} {s : State} {f : Fault}
    (h : runTask k t ts s = .fault f) : s.hang = some 0 := by
  cases t with
  | bindPins j =>
    by_cases hl : enabledCalls j = []
    · simp [runTask, bindStep, hl] at h
    · obtain ⟨c, before, after, hp, _⟩ := pick_eq_some (k := k.bindCall) hl
      simp only [runTask, bindStep, hp] at h
      exact (callOut_eq_fault.mp h).1
  | pins w left =>
    by_cases hl : left = []
    · simp [runTask, pinStep, hl] at h
    · obtain ⟨c, before, after, hp, _⟩ := pick_eq_some (k := k.pinWrite) hl
      simp only [runTask, pinStep, hp] at h
      exact (callOut_eq_fault.mp h).1
  | write r v => simp only [runTask] at h; exact (callOut_eq_fault.mp h).1
  | hold => simp only [runTask] at h; exact (callOut_eq_fault.mp h).1
  | markConfigured => simp [runTask] at h

end Sys2Proof.Machine
end

