-- ==== Sys2Proof/Laws/Dispatch.lean ====
section
/-! SUPPORT. Executing an instruction is sending its word: the one fact about `exec` that every lemma cites. -/
namespace Sys2Proof.Machine

/-- R1, R65 (log 1): each arm sends the word of its instruction. -/
theorem exec_eq_sendWord (i : Instr) (s : State) : exec i s = sendWord (encode i) s := by
  cases i <;> rfl

/-- Everything `exec` can answer. -/
theorem exec_cases (i : Instr) (s : State) :
    (s.phase ≠ [] ∧ exec i s = .refused .operationWhileRunning) ∨
    (s.phase = [] ∧ s.configured = false ∧ exec i s = .next (silentNoOp .notConfigured s)) ∨
    (s.phase = [] ∧ s.configured = true ∧ exec i s = .next (startWords [encode i] s)) := by
  rw [exec_eq_sendWord]
  exact sendWord_cases (encode i) s

end Sys2Proof.Machine
end

