-- ==== Sys2Proof/Laws/Step.lean ====
section
/-! SUPPORT. What one step can do, and what a host's call answers. -/
namespace Sys2Proof.Machine

/-! ### What is presented -/

theorem presented_idle {s : State} (hp : s.phase = []) {q : Request} {rest : List Request}
    (hq : s.program = q :: rest) : presented s = some (q, rest) := by simp [presented, hp, hq]

theorem presented_early {s : State} {q : Request} {rest : List Request} (hq : s.program = q :: rest)
    (hw : q.waits = false) : presented s = some (q, rest) := by simp [presented, hq, hw]

theorem presented_nil {s : State} (hq : s.program = []) : presented s = none := by simp [presented, hq]

theorem presented_running {s : State} (hp : s.phase ≠ []) (hw : presentsEarly s = false) : presented s = none := by
  cases hq : s.program with
  | nil => exact presented_nil hq
  | cons q rest =>
    have : q.waits = true := by simpa [presentsEarly, hq] using hw
    simp [presented, hq, hp, this]

/-- What is presented is the head of the program, to an Idle block or without waiting. -/
theorem presented_eq_some {s : State} {q : Request} {rest : List Request} (h : presented s = some (q, rest)) :
    s.program = q :: rest ∧ (s.phase = [] ∨ (s.phase ≠ [] ∧ q.waits = false)) := by
  cases hq : s.program with
  | nil => simp [presented, hq] at h
  | cons q' rest' =>
    simp only [presented, hq, Option.ite_none_right_eq_some, Option.some.injEq, Prod.mk.injEq] at h
    obtain ⟨hc, rfl, rfl⟩ := h
    refine ⟨rfl, ?_⟩
    by_cases hp : s.phase = []
    · exact .inl hp
    · exact .inr ⟨hp, hc.resolve_left hp⟩

theorem presented_eq_none {s : State} (h : presented s = none) :
    (s.phase = [] ∧ s.program = []) ∨ (s.phase ≠ [] ∧ presentsEarly s = false) := by
  cases hq : s.program with
  | nil =>
    by_cases hp : s.phase = []
    · exact .inl ⟨hp, rfl⟩
    · exact .inr ⟨hp, by simp [presentsEarly, hq]⟩
  | cons q rest =>
    simp only [presented, hq, ite_eq_right_iff, reduceCtorEq, imp_false, not_or, Bool.not_eq_false] at h
    exact .inr ⟨h.1, by simp [presentsEarly, hq, h.2]⟩

theorem presentsEarly_congr {s t : State} (h : t.program = s.program) : presentsEarly t = presentsEarly s := by
  simp [presentsEarly, h]

/-! ### The branches of a step -/

theorem stepWith_presented {s : State} {q : Request} {rest : List Request} (h : presented s = some (q, rest))
    (k : Choice) : stepWith k s = execCall q.call { s with program := rest } := by simp [stepWith, h]

theorem stepWith_idle {s : State} (hp : s.phase = []) (hq : s.program = []) (k : Choice) :
    stepWith k s = .next s := by simp [stepWith, presented_nil hq, hp]

theorem stepWith_presents {s : State} (hp : s.phase = []) {q : Request} {rest : List Request}
    (hq : s.program = q :: rest) (k : Choice) :
    stepWith k s = execCall q.call { s with program := rest } := stepWith_presented (presented_idle hp hq) k

theorem stepWith_early {s : State} {q : Request} {rest : List Request} (hq : s.program = q :: rest)
    (hw : q.waits = false) (k : Choice) :
    stepWith k s = execCall q.call { s with program := rest } := stepWith_presented (presented_early hq hw) k

theorem stepWith_running {s : State} {t : Task} {ts : List Task} (hp : s.phase = t :: ts)
    (hw : presentsEarly s = false) (k : Choice) : stepWith k s = runTask k t ts s := by
  simp [stepWith, presented_running (s := s) (by simp [hp]) hw, hp]

/-- While a call runs only an encoder function answers a next state, and it leaves the running call alone. -/
theorem execCall_running {c : Call} {s t : State} (hp : s.phase ≠ []) (h : execCall c s = .next t) :
    ∃ e i, c = .encode e ∧ e.narrow = some i ∧ t = { s with encoded := some (encode i) } := by
  cases c with
  | encode e =>
    simp only [execCall, opEncode] at h
    cases hn : e.narrow with
    | none => simp [hn] at h
    | some i => exact ⟨e, i, rfl, hn, by simpa [hn, eq_comm] using h⟩
  | init ids gpio => simp [execCall, opInit, whenIdle_running hp] at h
  | send bits =>
    simp only [execCall, runSend] at h
    cases hd : decodeBits bits with
    | ok i => simp [hd, exec_eq_sendWord, sendWord_running hp] at h
    | error e => simp [hd, send, whenConfigured_running hp] at h
  | _ =>
    simp [execCall, opClearDisplay, opSetCursorPosition, opWrite, opWriteLine, opTurnDisplayOn, opTurnDisplayOff,
      opTurnCursorOn, opTurnCursorOff, opStartCursorBlinking, opStopCursorBlinking, opSwitchTo8BitMode,
      opSwitchToDoubleLines, opSwitchToSingleLines, opSwitchTo5x8Font, opSwitchTo5x10Font,
      whenConfigured_running hp] at h

/-- A step that answers a next state leaves the block Idle as it is, accepts a call, evaluates an encoder function
beside the running call, or runs one task. -/
theorem stepWith_cases {k : Choice} {s u : State} (h : stepWith k s = .next u) :
    (s.phase = [] ∧ s.program = [] ∧ u = s) ∨
    (∃ q rest, s.phase = [] ∧ s.program = q :: rest ∧ execCall q.call { s with program := rest } = .next u) ∨
    (∃ q rest w, s.phase ≠ [] ∧ s.program = q :: rest ∧ u = { s with program := rest, encoded := some w }) ∨
    (∃ t ts, s.phase = t :: ts ∧ presentsEarly s = false ∧ runTask k t ts s = .next u) := by
  cases hq : presented s with
  | some qr =>
    obtain ⟨q, rest⟩ := qr
    rw [stepWith_presented hq] at h
    obtain ⟨hpr, hp | ⟨hp, _⟩⟩ := presented_eq_some hq
    · exact .inr (.inl ⟨q, rest, hp, hpr, h⟩)
    · obtain ⟨e, i, _, _, rfl⟩ := execCall_running (s := { s with program := rest }) hp h
      exact .inr (.inr (.inl ⟨q, rest, _, hp, hpr, rfl⟩))
  | none =>
    rcases presented_eq_none hq with ⟨hp, hpr⟩ | ⟨hp, hw⟩
    · rw [stepWith_idle hp hpr] at h
      exact .inl ⟨hp, hpr, by simpa [eq_comm] using h⟩
    · obtain ⟨t, ts, hp⟩ := List.exists_cons_of_ne_nil hp
      rw [stepWith_running hp hw] at h
      exact .inr (.inr (.inr ⟨t, ts, hp, hw, h⟩))

/-! ### The host's calls -/

/-- The configuration after an accepted call. -/
def acceptedCfg (cfg : Cfg) : Call → Cfg
  | .turnDisplayOn => { cfg with displayOn := true }
  | .turnDisplayOff => { cfg with displayOn := false }
  | .turnCursorOn => { cfg with cursorOn := true }
  | .turnCursorOff => { cfg with cursorOn := false }
  | .startCursorBlinking => { cfg with cursorBlink := true }
  | .stopCursorBlinking => { cfg with cursorBlink := false }
  | .switchTo8BitMode => { cfg with bitWidth := true }
  | .switchToDoubleLines => { cfg with lineCount := true }
  | .switchToSingleLines => { cfg with lineCount := false }
  | .switchTo5x8Font => { cfg with font := false }
  | .switchTo5x10Font => { cfg with font := true }
  | _ => cfg

/-- The words an accepted call sends, by the encoder functions; none for a call that is no `Send` of ten bits and no
operation. -/
def acceptedWords (cfg : Cfg) : Call → List Word
  | .init _ _ => []
  | .clearDisplay => [encodeClearDisplay]
  | .setCursorPosition row column => [cursorWord cfg row column]
  | .write text => textWords text
  | .writeLine text => textWords text ++ [encodeSetDDRAMAddress 40#7]
  | .turnDisplayOn => [displayConfigWord { cfg with displayOn := true }]
  | .turnDisplayOff => [displayConfigWord { cfg with displayOn := false }]
  | .turnCursorOn => [displayConfigWord { cfg with cursorOn := true }]
  | .turnCursorOff => [displayConfigWord { cfg with cursorOn := false }]
  | .startCursorBlinking => [displayConfigWord { cfg with cursorBlink := true }]
  | .stopCursorBlinking => [displayConfigWord { cfg with cursorBlink := false }]
  | .switchTo8BitMode => [textConfigWord { cfg with bitWidth := true }]
  | .switchToDoubleLines => [textConfigWord { cfg with lineCount := true }]
  | .switchToSingleLines => [textConfigWord { cfg with lineCount := false }]
  | .switchTo5x8Font => [textConfigWord { cfg with font := false }]
  | .switchTo5x10Font => [textConfigWord { cfg with font := true }]
  | .send bits => (wordOfSeq? bits).toList
  | .encode _ => []

/-- A call that is an operation or a `Send` of ten bits: what is left when `init`, an encoder function and a malformed
`Send` are taken away. -/
def sendsWords : Call → Bool
  | .init _ _ => false
  | .encode _ => false
  | .send bits => (wordOfSeq? bits).isSome
  | _ => true

/-- `Send` as the host presents it is `Send`: executing the instruction of a word sends that very word. The hypothesis
is the round trip of the opcode map. -/
theorem runSend_eq_send {bits : List Bool} (hd : ∀ w i, decodeWord w = some i → encode i = w) (s : State) :
    runSend bits s = send bits s := by
  unfold runSend decodeBits
  cases hw : wordOfSeq? bits with
  | none => rfl
  | some w =>
    cases hi : decodeWord w with
    | none => simp only [hi]
    | some i =>
      simp only [hi]
      rw [exec_eq_sendWord, hd w i hi, send_of_word hw]

/-- Every operation but `init`, in Configured and Idle: its flag, then its words. -/
theorem execCall_operation {s : State} (hi : s.phase = []) (hc : s.configured = true) {c : Call}
    (hs : sendsWords c = true) (hb : ∀ bits, c ≠ .send bits) :
    execCall c s = .next (startWords (acceptedWords s.cfg c) { s with cfg := acceptedCfg s.cfg c }) := by
  have key : ∀ (cfg : Cfg) (w : Word),
      sendWord w { s with cfg := cfg } = .next (startWords [w] { s with cfg := cfg }) :=
    fun cfg w => sendWord_ready (s := { s with cfg := cfg }) hi hc w
  cases c with
  | init _ _ => simp [sendsWords] at hs
  | encode _ => simp [sendsWords] at hs
  | send bits => exact absurd rfl (hb bits)
  | clearDisplay =>
    simp only [execCall, opClearDisplay, whenConfigured_ready hi hc, acceptedWords, acceptedCfg]
    exact key s.cfg _
  | setCursorPosition row column =>
    simp only [execCall, opSetCursorPosition, whenConfigured_ready hi hc, acceptedWords, acceptedCfg]
    exact key s.cfg _
  | write text => simp only [execCall, opWrite, whenConfigured_ready hi hc, acceptedWords, acceptedCfg]
  | writeLine text => simp only [execCall, opWriteLine, whenConfigured_ready hi hc, acceptedWords, acceptedCfg]
  | turnDisplayOn =>
    simp only [execCall, opTurnDisplayOn, whenConfigured_ready hi hc, applyDisplayConfig_eq, key, acceptedWords, acceptedCfg]
  | turnDisplayOff =>
    simp only [execCall, opTurnDisplayOff, whenConfigured_ready hi hc, applyDisplayConfig_eq, key, acceptedWords, acceptedCfg]
  | turnCursorOn =>
    simp only [execCall, opTurnCursorOn, whenConfigured_ready hi hc, applyDisplayConfig_eq, key, acceptedWords, acceptedCfg]
  | turnCursorOff =>
    simp only [execCall, opTurnCursorOff, whenConfigured_ready hi hc, applyDisplayConfig_eq, key, acceptedWords, acceptedCfg]
  | startCursorBlinking =>
    simp only [execCall, opStartCursorBlinking, whenConfigured_ready hi hc, applyDisplayConfig_eq, key, acceptedWords, acceptedCfg]
  | stopCursorBlinking =>
    simp only [execCall, opStopCursorBlinking, whenConfigured_ready hi hc, applyDisplayConfig_eq, key, acceptedWords, acceptedCfg]
  | switchTo8BitMode =>
    simp only [execCall, opSwitchTo8BitMode, whenConfigured_ready hi hc, applyTextConfig_eq, key, acceptedWords, acceptedCfg]
  | switchToDoubleLines =>
    simp only [execCall, opSwitchToDoubleLines, whenConfigured_ready hi hc, applyTextConfig_eq, key, acceptedWords, acceptedCfg]
  | switchToSingleLines =>
    simp only [execCall, opSwitchToSingleLines, whenConfigured_ready hi hc, applyTextConfig_eq, key, acceptedWords, acceptedCfg]
  | switchTo5x8Font =>
    simp only [execCall, opSwitchTo5x8Font, whenConfigured_ready hi hc, applyTextConfig_eq, key, acceptedWords, acceptedCfg]
  | switchTo5x10Font =>
    simp only [execCall, opSwitchTo5x10Font, whenConfigured_ready hi hc, applyTextConfig_eq, key, acceptedWords, acceptedCfg]

end Sys2Proof.Machine
end

