-- ==== Sys2Proof/Laws/Run.lean ====
section
/-! SUPPORT. Runs of several steps. -/
namespace Sys2Proof.Machine

@[simp] theorem runSteps_zero (s : State) : runSteps 0 s = .next s := rfl

/-- A run takes one step and goes on from where it leads. -/
theorem runSteps_succ_eq (n : Nat) (s : State) :
    runSteps (n + 1) s =
      match step s with
      | .next t => runSteps n t
      | .fault f => .fault f
      | .refused r => .refused r := rfl

theorem runSteps_succ {s t : State} (h : step s = .next t) (n : Nat) : runSteps (n + 1) s = runSteps n t := by
  rw [runSteps_succ_eq, h]

theorem runSteps_fault {s : State} {f : Fault} (h : step s = .fault f) (n : Nat) : runSteps (n + 1) s = .fault f := by
  rw [runSteps_succ_eq, h]

theorem runSteps_refused {s : State} {r : Refusal} (h : step s = .refused r) (n : Nat) :
    runSteps (n + 1) s = .refused r := by
  rw [runSteps_succ_eq, h]

/-- A run of at least one step that answers a next state begins with a step that does. -/
theorem runSteps_succ_next {n : Nat} {s u : State} (h : runSteps (n + 1) s = .next u) :
    ∃ t, step s = .next t ∧ runSteps n t = .next u := by
  rw [runSteps_succ_eq] at h
  cases hs : step s with
  | next t => exact ⟨t, rfl, by simpa [hs] using h⟩
  | fault f => simp [hs] at h
  | refused r => simp [hs] at h

/-- A run of `m + n` steps is a run of `m` steps and then of `n`. -/
theorem runSteps_add {m : Nat} {s t : State} (h : runSteps m s = .next t) (n : Nat) :
    runSteps (m + n) s = runSteps n t := by
  induction m generalizing s with
  | zero =>
    simp only [runSteps_zero, Host.Outcome.next.injEq] at h
    rw [h, Nat.zero_add]
  | succ m ih =>
    obtain ⟨u, hs, hu⟩ := runSteps_succ_next h
    rw [Nat.succ_add, runSteps_succ hs, ih hu]

/-- A function that takes steps as the host's run does is the host's run. -/
theorem eq_run_of_steps (M : Host.Core) (f : Nat → M.State → Host.Outcome M.State M.Fault M.Refusal)
    (h0 : ∀ s, f 0 s = .next s)
    (h1 : ∀ n s t, M.step s = .next t → f (n + 1) s = f n t)
    (h2 : ∀ n s e, M.step s = .fault e → f (n + 1) s = .fault e)
    (h3 : ∀ n s r, M.step s = .refused r → f (n + 1) s = .refused r) (n : Nat) (s : M.State) :
    f n s = M.run n s := by
  induction n generalizing s with
  | zero => rw [h0, Host.Core.run]
  | succ n ih =>
    rw [Host.Core.run]
    cases h : M.step s with
    | next t => rw [h1 n s t h, ih]
    | fault e => rw [h2 n s e h]
    | refused r => rw [h3 n s r h]

/-- `runSteps` is the host's run of the machine. -/
theorem runSteps_eq_run (n : Nat) (s : State) : runSteps n s = Host.Core.run Sys2Proof.core n s :=
  eq_run_of_steps Sys2Proof.core runSteps (fun _ => rfl)
    (fun n _ _ h => runSteps_succ h n) (fun n _ _ h => runSteps_fault h n) (fun n _ _ h => runSteps_refused h n) n s

/-- What holds of a state and is kept by every step holds at the end of every run. -/
theorem runSteps_induction {P : State → Prop} (hstep : ∀ s t, P s → step s = .next t → P t)
    {n : Nat} {s t : State} (hs : P s) (h : runSteps n s = .next t) : P t := by
  induction n generalizing s with
  | zero =>
    simp only [runSteps_zero, Host.Outcome.next.injEq] at h
    exact h ▸ hs
  | succ n ih =>
    obtain ⟨u, hst, hu⟩ := runSteps_succ_next h
    exact ih (hstep s u hs hst) hu

end Sys2Proof.Machine
end

