-- ==== Sys2Proof/Laws/Transaction.lean ====
section
/-! SUPPORT. Whole runs of a transaction: the pin phase in whatever order it takes, the strobe, and the two together. -/
namespace Sys2Proof.Machine

/-- A step while a call runs is the first task of the phase. -/
theorem step_running {s : State} {t : Task} {ts : List Task} (hp : s.phase = t :: ts)
    (hw : presentsEarly s = false) : step s = runTask (Config.choiceAt s.choices) t ts s := stepWith_running hp hw _

/-- The write that a role gets in a pin phase of `w`. -/
def writeOf (w : Word) (r : Role) : Event := .write r (wordBit w r)

/-- R66: a pin phase writes each role that is left once, in some order, one a step, and no other pin changes. -/
theorem pinPhase_runs (w : Word) (ts : List Task) : ∀ (left : List Role) (s : State), left ≠ [] → left.Nodup →
    s.phase = .pins w left :: ts → s.hang = none → presentsEarly s = false →
    ∃ writes pin', writes.Perm (left.map (writeOf w)) ∧
      (∀ r, pin'.get r = if r ∈ left then levelOf (wordBit w r) else s.pin.get r) ∧
      runSteps left.length s = .next (continueWith ts
        { s with pin := pin', trace := s.trace ++ writes, choices := s.choices + left.length }) := by
  intro left
  induction hn : left.length using Nat.strong_induction_on generalizing left with
  | _ n ih =>
  intro s hl hnd hp hh hw
  subst hn
  obtain ⟨r, before, after, he, hr⟩ :=
    runTask_pins (Config.choiceAt s.choices) w left ts (s := s) (by simp [hh]) hl
  rw [← step_running hp hw] at hr
  have hlen : left.length = (before ++ after).length + 1 := by rw [he]; simp; omega
  have hperm : left.Perm (r :: (before ++ after)) := by rw [he]; exact List.perm_middle
  by_cases hba : before ++ after = []
  · refine ⟨[writeOf w r], s.pin.set r (levelOf (wordBit w r)), ?_, ?_, ?_⟩
    · have := hperm.map (writeOf w)
      rw [hba] at this
      simpa using this.symm
    · intro q
      rw [PerRole.get_set, he]
      simp at hba
      simp only [hba.1, hba.2, List.nil_append, List.mem_singleton]
      by_cases hq : q = r
      · simp [hq]
      · simp [hq]
    · rw [hlen, hba]
      simp only [List.length_nil]
      rw [runSteps_succ hr, hba, runSteps_zero]
      cases ts <;> simp [afterPin, continueWith, tookChoice, setPin, record, returned, writeOf, hh]
  · obtain ⟨a, l, hal⟩ := List.exists_cons_of_ne_nil hba
    have hnd' : (before ++ after).Nodup := by
      have := hperm.nodup_iff.mp hnd
      exact (List.nodup_cons.mp this).2
    have hrn : r ∉ before ++ after := by
      have := hperm.nodup_iff.mp hnd
      exact (List.nodup_cons.mp this).1
    set t := continueWith (afterPin w (before ++ after) ts)
        (tookChoice (setPin r (wordBit w r) (record (.write r (wordBit w r)) s))) with ht
    obtain ⟨writes, pin', h1, h2, h3⟩ := ih (before ++ after).length (by omega) (before ++ after) rfl t hba hnd'
      (by simp [ht, hal, afterPin]) (by simp [ht, hh]) (by rw [← hw]; exact presentsEarly_congr (by simp [ht]))
    refine ⟨writeOf w r :: writes, pin', ?_, ?_, ?_⟩
    · refine (List.Perm.cons _ h1).trans ?_
      have := hperm.map (writeOf w)
      simpa using this.symm
    · intro q
      rw [h2 q]
      simp only [ht, continueWith_pin, tookChoice_pin, setPin_pin, record_pin, PerRole.get_set]
      by_cases hq : q = r
      · subst hq
        simp only [hrn, if_false, he]
        simp
      · have : q ∈ left ↔ q ∈ before ++ after := by rw [hperm.mem_iff]; simp [hq]
        simp [hq, this]
    · rw [hlen, runSteps_succ hr, h3]
      simp only [ht, hal, afterPin, continueWith_cons]
      cases ts <;> simp [continueWith, returned, tookChoice, setPin, record, hh, writeOf] <;> omega


/-- R67: the six steps of a strobe. -/
theorem strobe_runs (ts : List Task) {s : State} (hp : s.phase = strobe ++ ts) (hh : s.hang = none)
    (hw : presentsEarly s = false) :
    runSteps 6 s = .next (continueWith ts
      { s with pin := s.pin.set .e .low, trace := s.trace ++ strobeEvents }) := by
  obtain ⟨configured, cfg, bind, pin, phase, trace, answer, encoded, program, hang, choices⟩ := s
  simp only at hp hh
  subst hp hh
  have hstep : ∀ (t : Task) (us : List Task) (p : PerRole Level) (tr : List Event),
      step ⟨configured, cfg, bind, p, t :: us, tr, answer, encoded, program, none, choices⟩ =
        runTask (Config.choiceAt choices) t us ⟨configured, cfg, bind, p, t :: us, tr, answer, encoded, program, none, choices⟩ :=
    fun t us p tr => step_running rfl (by rw [← hw]; rfl)
  have hE : ∀ v us p tr u us', us = u :: us' →
      step ⟨configured, cfg, bind, p, .write .e v :: us, tr, answer, encoded, program, none, choices⟩ =
        .next ⟨configured, cfg, bind, p.set .e (levelOf v), us, tr ++ [.write .e v], answer, encoded, program, none, choices⟩ := by
    intro v us p tr u us' h
    subst h
    rw [hstep, runTask_write _ _ _ _ (by simp)]
    rfl
  have hH : ∀ us p tr u us', us = u :: us' →
      step ⟨configured, cfg, bind, p, .hold :: us, tr, answer, encoded, program, none, choices⟩ =
        .next ⟨configured, cfg, bind, p, us, tr ++ [.hold], answer, encoded, program, none, choices⟩ := by
    intro us p tr u us' h
    subst h
    rw [hstep, runTask_hold _ _ (by simp)]
    rfl
  change runSteps 6 ⟨configured, cfg, bind, pin, .write .e false :: .hold :: .write .e true :: .hold ::
    .write .e false :: .hold :: ts, trace, answer, encoded, program, none, choices⟩ = _
  rw [runSteps_succ (hE _ _ _ _ _ _ rfl), runSteps_succ (hH _ _ _ _ _ rfl), runSteps_succ (hE _ _ _ _ _ _ rfl),
    runSteps_succ (hH _ _ _ _ _ rfl), runSteps_succ (hE _ _ _ _ _ _ rfl)]
  have hlast : ∀ p tr, step ⟨configured, cfg, bind, p, .hold :: ts, tr, answer, encoded, program, none, choices⟩ =
      .next (continueWith ts ⟨configured, cfg, bind, p, .hold :: ts, tr ++ [.hold], answer, encoded, program, none, choices⟩) := by
    intro p tr
    rw [hstep, runTask_hold _ _ (by simp)]
    rfl
  rw [runSteps_succ (hlast _ _), runSteps_zero]
  cases ts <;> simp [continueWith, returned, strobeEvents, PerRole.set, levelOf]

/-- R66: the ten writes of a pin phase, by role. -/
theorem pinPhaseEvents_eq (w : Word) : wordRoles.map (writeOf w) = pinPhaseEvents w := rfl

/-- R66, R67, R73: the sixteen steps of a transaction. -/
theorem transaction_runs (w : Word) (ts : List Task) {s : State} (hp : s.phase = transaction w ++ ts)
    (hh : s.hang = none) (hw : presentsEarly s = false) :
    ∃ writes, writes.Perm (pinPhaseEvents w) ∧
      runSteps 16 s = .next (continueWith ts
        { s with
          pin := levelsOfWord w, trace := s.trace ++ (writes ++ strobeEvents), choices := s.choices + 10 }) := by
  obtain ⟨writes, pin', h1, h2, h3⟩ := pinPhase_runs w (strobe ++ ts) wordRoles s (by decide) (by decide)
    (by rw [hp]; rfl) hh hw
  refine ⟨writes, h1, ?_⟩
  rw [show 16 = wordRoles.length + 6 from rfl, runSteps_add h3]
  have hc : continueWith (strobe ++ ts)
      { s with pin := pin', trace := s.trace ++ writes, choices := s.choices + wordRoles.length } =
      { s with pin := pin', trace := s.trace ++ writes, choices := s.choices + wordRoles.length,
               phase := strobe ++ ts } := rfl
  rw [hc]
  have hs := strobe_runs ts
    (s := { s with
      pin := pin', trace := s.trace ++ writes, choices := s.choices + wordRoles.length, phase := strobe ++ ts })
    rfl hh (by rw [← hw]; rfl)
  refine hs.trans ?_
  have hpin : pin'.set .e .low = levelsOfWord w := by
    apply PerRole.ext_get
    intro r
    rw [PerRole.get_set]
    by_cases hr : r = .e
    · subst hr; rfl
    · rw [if_neg hr, h2, if_pos (mem_wordRoles.mpr hr)]
      cases r <;> rfl
  cases ts <;> simp [continueWith, returned, hpin, wordRoles, hh]

/-- R36: transactions run one after another, sixteen steps each. -/
theorem transactions_end (ts : List Task) (ws : List Word) : ∀ (w : Word) (s : State),
    s.phase = transactions (w :: ws) ++ ts → s.hang = none → presentsEarly s = false →
    ∃ pin' trace' choices', runSteps (16 * (w :: ws).length) s = .next (continueWith ts
      { s with pin := pin', trace := trace', choices := choices' }) := by
  induction ws with
  | nil =>
    intro w s hp hh hw
    obtain ⟨writes, _, h⟩ := transaction_runs w ts (by simpa using hp) hh hw
    exact ⟨_, _, _, h⟩
  | cons v ws ih =>
    intro w s hp hh hw
    obtain ⟨writes, _, h⟩ := transaction_runs w (transactions (v :: ws) ++ ts) (by simpa using hp) hh hw
    obtain ⟨p, tr, ch, g⟩ := ih v { s with
        pin := levelsOfWord w, trace := s.trace ++ (writes ++ strobeEvents), choices := s.choices + 10,
        phase := transactions (v :: ws) ++ ts } rfl hh hw
    refine ⟨p, tr, ch, ?_⟩
    rw [show 16 * (w :: v :: ws).length = 16 + 16 * (v :: ws).length by simp; omega, runSteps_add h]
    refine Eq.trans ?_ (g.trans ?_)
    · rfl
    · cases ts <;> rfl

end Sys2Proof.Machine
end

