-- ==== Sys2Proof/Laws/Binding.lean ====
section
/-! SUPPORT. The binding calls of `init` (42_controller_operations.md R77, R78): what may come next, that a job shrinks
with every call, and that one without a failing role ends. -/
namespace Sys2Proof.Machine

theorem mem_enabledCalls {j : BindJob} {c : BindCall} (h : c ∈ enabledCalls j) :
    (∃ r, c = .openPin r ∧ r ∈ j.toOpen) ∨ (∃ r, c = .setOutput r ∧ r ∈ j.toSet) := by
  simp only [enabledCalls, List.mem_append, List.mem_map] at h
  rcases h with ⟨r, h, rfl⟩ | ⟨r, h, rfl⟩
  · exact .inl ⟨r, rfl, h⟩
  · exact .inr ⟨r, rfl, h⟩

/-- The calls still to make: two for a role not yet opened, one for an opened one. -/
theorem answeredJob_shrinks {j : BindJob} {c : BindCall} (h : c ∈ enabledCalls j) :
    2 * (answeredJob j c).toOpen.length + (answeredJob j c).toSet.length <
      2 * j.toOpen.length + j.toSet.length := by
  rcases mem_enabledCalls h with ⟨r, rfl, hr⟩ | ⟨r, rfl, hr⟩
  · have := List.length_erase_of_mem hr
    have hpos : 0 < j.toOpen.length := List.length_pos_of_mem hr
    cases hg : j.gpio.get r <;> simp [answeredJob, hg, this] <;> omega
  · have := List.length_erase_of_mem hr
    have hpos : 0 < j.toSet.length := List.length_pos_of_mem hr
    cases hg : j.gpio.get r <;> simp [answeredJob, hg, this] <;> omega

/-- Every call that may come next does come next under some open choices, whatever `stop` is. -/
theorem stepWith_binding {j : BindJob} {ts : List Task} {s : State} {c : BindCall} (hc : c ∈ enabledCalls j)
    (hp : s.phase = .bindPins j :: ts) (hh : s.hang = none) (hw : presentsEarly s = false) (stop : Bool) :
    ∃ k : Choice, k.stop = stop ∧ stepWith k s = .next (bindGoesOn stop (answeredJob j c) ts
      (tookChoice { record (bindEvent j c) s with bind := bindAfter j c s.bind })) := by
  obtain ⟨i, hi, e⟩ := List.mem_iff_getElem.mp hc
  refine ⟨⟨0, i, stop⟩, rfl, ?_⟩
  have hpick : pick i (enabledCalls j) = some (c, (enabledCalls j).eraseIdx i) := by
    simp [pick, Nat.mod_eq_of_lt hi, e, hi]
  rw [stepWith_running hp hw, runTask, bindStep, hpick]
  exact callOut_returns (by simp [hh]) _ _

/-- One step of a binding that has a call to make. -/
theorem step_binding {j : BindJob} {ts : List Task} {s : State} (hp : s.phase = .bindPins j :: ts)
    (hh : s.hang = none) (hw : presentsEarly s = false) (hne : enabledCalls j ≠ []) :
    ∃ c ∈ enabledCalls j, step s = .next (bindGoesOn (Config.choiceAt s.choices).stop (answeredJob j c) ts
      (tookChoice { record (bindEvent j c) s with bind := bindAfter j c s.bind })) := by
  obtain ⟨c, h1, h2⟩ := runTask_bindPins (Config.choiceAt s.choices) j ts (s := s) (by simp [hh]) hne
  exact ⟨c, h1, by rw [step_running hp hw, h2]⟩

/-- A job whose roles all bind ends after as many steps as it has calls to make, without a failure, whatever order the
calls come in. -/
theorem binding_ends (ts : List Task) {gpio : PerRole BindAnswer} (hall : allSucceed gpio) :
    ∀ (n : Nat) (j : BindJob) (s : State), n = 2 * j.toOpen.length + j.toSet.length → j.gpio = gpio →
    j.failed = false → enabledCalls j ≠ [] → s.phase = .bindPins j :: ts → s.hang = none → presentsEarly s = false →
    ∃ bind' trace' choices', runSteps n s = .next (continueWith ts
      { s with bind := bind', trace := trace', choices := choices' }) := by
  intro n
  induction n with
  | zero =>
    intro j s hn _ _ hne
    have h1 : j.toOpen.length = 0 := by omega
    have h2 : j.toSet.length = 0 := by omega
    simp only [List.length_eq_zero_iff] at h1 h2
    simp [enabledCalls, h1, h2] at hne
  | succ n ih =>
    intro j s hn hg hf hne hp hh hw
    obtain ⟨c, hc, hst⟩ := step_binding hp hh hw hne
    have hjob : (answeredJob j c).failed = false ∧ (answeredJob j c).gpio = gpio ∧
        2 * (answeredJob j c).toOpen.length + (answeredJob j c).toSet.length = n := by
      rcases mem_enabledCalls hc with ⟨r, rfl, hr⟩ | ⟨r, rfl, hr⟩ <;> obtain ⟨h, hb⟩ := hall r <;> rw [← hg] at hb <;>
        have hl := List.length_erase_of_mem hr <;> have hpos := List.length_pos_of_mem hr <;>
        exact ⟨by simp [answeredJob, hb, hf], by simpa [answeredJob, hb] using hg,
          by simp only [answeredJob, hb, List.length_append, List.length_singleton, hl]; omega⟩
    obtain ⟨hf', hg', hn'⟩ := hjob
    simp only [bindGoesOn, hf', Bool.false_and, Bool.false_eq_true, if_false] at hst
    by_cases he : enabledCalls (answeredJob j c) = []
    · have h0 : n = 0 := by
        simp only [enabledCalls, List.append_eq_nil_iff, List.map_eq_nil_iff] at he
        simp [← hn', he]
      simp only [he, List.isEmpty_nil, if_true] at hst
      refine ⟨bindAfter j c s.bind, s.trace ++ [bindEvent j c], s.choices + 1, ?_⟩
      rw [h0, runSteps_succ hst, runSteps_zero]
      cases ts <;> simp [continueWith, returned, tookChoice, record, hh]
    · rw [if_neg (by simpa using he)] at hst
      obtain ⟨b, tr, ch, h⟩ := ih (answeredJob j c)
        { tookChoice { record (bindEvent j c) s with bind := bindAfter j c s.bind } with
          phase := .bindPins (answeredJob j c) :: ts }
        hn'.symm hg' hf' he rfl (by simp [hh]) ((presentsEarly_congr (by simp)).trans hw)
      refine ⟨b, tr, ch, ?_⟩
      rw [runSteps_succ hst, h]
      cases ts <;> simp [continueWith, returned, tookChoice, record, hh]

end Sys2Proof.Machine
end

