-- ==== Sys2Proof/Laws/Calls.lean ====
section
/-! SUPPORT. Everything a host call can answer when it is presented to an Idle block: the lemma that proofs about a step
cite in place of the eighteen calls. -/
namespace Sys2Proof.Machine

/-- `Send` as the host presents it, on an Idle block: it starts one word, or leaves all but the answer alone. -/
theorem runSend_cases {bits : List Bool} {s t : State} (hp : s.phase = []) (h : runSend bits s = .next t) :
    (s.configured = true ∧ ∃ w, t = startWords [w] s) ∨ ∃ a, t = { s with answer := some a } := by
  unfold runSend at h
  cases hd : decodeBits bits with
  | ok i =>
    simp only [hd] at h
    rcases exec_cases i s with ⟨h1, _⟩ | ⟨_, _, e⟩ | ⟨_, hc, e⟩
    · exact absurd hp h1
    · rw [e] at h; simp at h; exact .inr ⟨_, h.symm⟩
    · rw [e] at h; simp at h; exact .inl ⟨hc, _, h.symm⟩
  | error e =>
    simp only [hd] at h
    rcases Bool.eq_false_or_eq_true s.configured with hc | hc
    · by_cases hl : bits.length = 10
      · obtain ⟨w, hw⟩ := Option.isSome_iff_exists.mp ((wordOfSeq?_isSome_iff bits).mpr hl)
        rw [send_of_word hw, sendWord_ready hp hc] at h
        simp only [Host.Outcome.next.injEq] at h
        exact .inl ⟨hc, _, h.symm⟩
      · rw [send_malformed hp hc hl] at h
        simp only [Host.Outcome.next.injEq] at h
        exact .inr ⟨_, h.symm⟩
    · rw [send, whenConfigured_unconfigured hp hc] at h
      simp only [Host.Outcome.next.injEq] at h
      exact .inr ⟨_, h.symm⟩

/-- R76: any call but `init` and an encoder function, in Unconfigured and Idle, changes only the answer. -/
theorem execCall_unconfigured {c : Call} {s t : State} (hp : s.phase = []) (hc : s.configured = false)
    (hi : isInit c = false) (he : ∀ e, c ≠ .encode e) (h : execCall c s = .next t) :
    ∃ a, t = { s with answer := some a } := by
  cases c with
  | init ids gpio => simp [isInit] at hi
  | encode e => exact absurd rfl (he e)
  | send bits =>
    rcases runSend_cases hp h with ⟨h1, _⟩ | h
    · simp [hc] at h1
    · exact h
  | _ =>
    have hw : ∀ k, whenConfigured s k = .next (silentNoOp .notConfigured s) := whenConfigured_unconfigured hp hc
    simp only [execCall, opClearDisplay, opSetCursorPosition, opWrite, opWriteLine, opTurnDisplayOn, opTurnDisplayOff,
      opTurnCursorOn, opTurnCursorOff, opStartCursorBlinking, opStopCursorBlinking, opSwitchTo8BitMode,
      opSwitchToDoubleLines, opSwitchToSingleLines, opSwitchTo5x8Font, opSwitchTo5x10Font, hw] at h
    simp at h
    exact ⟨_, h.symm⟩

/-- Everything a call can answer as a next state, on an Idle block: `init` starts binding, an operation in Configured
writes its flag and starts its words, an encoder function returns its word, and every other call changes the answer
alone. -/
theorem execCall_cases {c : Call} {s t : State} (hp : s.phase = []) (h : execCall c s = .next t) :
    (∃ ids gpio, c = .init ids gpio ∧ s.configured = false ∧
      t = { s with phase := .bindPins (newJob ids gpio) :: bringUp s.cfg, answer := none }) ∨
    (s.configured = true ∧ ∃ ws, t = startWords ws { s with cfg := acceptedCfg s.cfg c }) ∨
    (∃ a, t = { s with answer := some a } ∧ acceptedCfg s.cfg c = s.cfg) ∨
    (s.configured = false ∧ ∃ a, t = { s with answer := some a }) ∨
    (∃ e w, c = .encode e ∧ t = { s with encoded := some w }) := by
  cases c with
  | init ids gpio =>
    rw [execCall, opInit, whenIdle_idle hp] at h
    cases hc : s.configured with
    | true => simp [hc] at h
    | false => simp [hc] at h; exact .inl ⟨ids, gpio, rfl, rfl, h.symm⟩
  | encode e =>
    simp only [execCall, opEncode] at h
    cases hn : e.narrow with
    | none => simp [hn] at h
    | some i => simp [hn] at h; exact .inr (.inr (.inr (.inr ⟨e, _, rfl, h.symm⟩)))
  | send bits =>
    rcases runSend_cases hp h with ⟨hc, w, e⟩ | ⟨a, e⟩
    · exact .inr (.inl ⟨hc, [w], e⟩)
    · exact .inr (.inr (.inl ⟨a, e, rfl⟩))
  | _ =>
    rcases Bool.eq_false_or_eq_true s.configured with hc | hc
    · rw [execCall_operation hp hc rfl (by simp)] at h
      simp only [Host.Outcome.next.injEq] at h
      exact .inr (.inl ⟨hc, _, h.symm⟩)
    · obtain ⟨a, e⟩ := execCall_unconfigured hp hc rfl (by simp) h
      exact .inr (.inr (.inr (.inl ⟨hc, a, e⟩)))

end Sys2Proof.Machine
end

