-- ==== Sys2Proof/Laws/PerInstr.lean ====
section
/-! SUPPORT. R44, S1: "fixed bits never vary across calls; only the documented parameter bit positions vary with input",
instruction by instruction. -/
namespace Sys2Proof.Laws.FixedBits

/-- The mask of the opcode table's row of an instruction. -/
def maskOf : Instr → Word
  | .clearDisplay => 0x3FF#10
  | .returnHome => 0x3FF#10
  | .entryModeSet _ _ => 0x3FC#10
  | .displayOnOffControl _ _ _ => 0x3F8#10
  | .cursorDisplayShift _ _ => 0x3F3#10
  | .functionSet _ _ _ => 0x3E3#10
  | .setCGRAMAddress _ => 0x3C0#10
  | .setDDRAMAddress _ => 0x380#10
  | .readBusyFlagAndAddress => 0x3FF#10
  | .writeData _ => 0x300#10
  | .readData => 0x3FF#10

/-- The match of the opcode table's row of an instruction. -/
def matchOf : Instr → Word
  | .clearDisplay => 0x001#10
  | .returnHome => 0x003#10
  | .entryModeSet _ _ => 0x004#10
  | .displayOnOffControl _ _ _ => 0x008#10
  | .cursorDisplayShift _ _ => 0x010#10
  | .functionSet _ _ _ => 0x020#10
  | .setCGRAMAddress _ => 0x040#10
  | .setDDRAMAddress _ => 0x080#10
  | .readBusyFlagAndAddress => 0x100#10
  | .writeData _ => 0x200#10
  | .readData => 0x300#10

/-- The fixed bits of the word of an instruction are those of its row of the opcode table (mask, match). -/
def Statement (i : Instr) : Prop := encode i &&& maskOf i = matchOf i

theorem clearDisplay : Statement .clearDisplay := rfl
theorem returnHome : Statement .returnHome := rfl
theorem entryModeSet (i s : Bool) : Statement (.entryModeSet i s) := by cases i <;> cases s <;> rfl
theorem displayOnOffControl (d c b : Bool) : Statement (.displayOnOffControl d c b) := by
  cases d <;> cases c <;> cases b <;> rfl
theorem cursorDisplayShift (s r : Bool) : Statement (.cursorDisplayShift s r) := by cases s <;> cases r <;> rfl
theorem functionSet (l n f : Bool) : Statement (.functionSet l n f) := by
  cases l <;> cases n <;> cases f <;> rfl

/-- A parameter of `k` bits below a fixed pattern leaves the pattern's bits alone. -/
theorem fixed_of_field {k : Nat} (pattern mask : Word) (a : BitVec k) (hp : pattern &&& mask = pattern)
    (hm : ∀ i, i < k → mask.getLsbD i = false) : (pattern ||| a.setWidth 10) &&& mask = pattern := by
  apply BitVec.eq_of_getLsbD_eq
  intro i hi
  have hpi : (pattern.getLsbD i && mask.getLsbD i) = pattern.getLsbD i := by
    rw [← BitVec.getLsbD_and, hp]
  by_cases hk : i < k
  · have hpk : pattern.getLsbD i = false := by simpa [hm i hk] using hpi.symm
    simp [hm i hk, hpk]
  · have ha : a.getLsbD i = false := BitVec.getLsbD_of_ge a i (by omega)
    simp [ha, hpi]

theorem setCGRAMAddress (a : CgramAddress) : Statement (.setCGRAMAddress a) :=
  fixed_of_field 0x040#10 0x3C0#10 a (by decide) (by decide)
theorem setDDRAMAddress (a : DdramAddress) : Statement (.setDDRAMAddress a) :=
  fixed_of_field 0x080#10 0x380#10 a (by decide) (by decide)
theorem readBusyFlagAndAddress : Statement .readBusyFlagAndAddress := rfl
theorem writeData (d : Byte) : Statement (.writeData d) :=
  fixed_of_field 0x200#10 0x300#10 d (by decide) (by decide)
theorem readData : Statement .readData := rfl

end Sys2Proof.Laws.FixedBits
end

