-- ==== Sys2Proof/Laws/Trace.lean ====
section
/-! SUPPORT. Reading a trace in two parts: each reading of Machine/Trace.lean and the protocol watch over `a ++ b`. -/
namespace Sys2Proof.Machine

theorem pinsAfter_append (p : PerRole Level) (a b : List Event) :
    pinsAfter p (a ++ b) = pinsAfter (pinsAfter p a) b := by simp [pinsAfter]

theorem transmitted_append (p : PerRole Level) (a b : List Event) :
    transmitted p (a ++ b) = transmitted p a ++ transmitted (pinsAfter p a) b := by
  induction a generalizing p with
  | nil => rfl
  | cons e a ih =>
    simp only [List.cons_append, transmitted, ih]
    split <;> simp [pinsAfter]

theorem holdCount_append (a b : List Event) : holdCount (a ++ b) = holdCount a + holdCount b := by simp [holdCount]

theorem writeCount_append (a b : List Event) : writeCount (a ++ b) = writeCount a + writeCount b := by simp [writeCount]

theorem watch_append (m : Watch) (a b : List Event) :
    watch m (a ++ b) = (watch m a).bind (fun m' => watch m' b) := by simp [watch, List.foldlM_append]

/-- The watch of a trace that has grown by one event. -/
theorem watch_snoc {m m1 m2 : Watch} {a : List Event} {ev : Event} (h : watch m a = some m1)
    (h2 : watchEvent m1 ev = some m2) : watch m (a ++ [ev]) = some m2 := by
  rw [watch_append, h]
  simp [watch, h2]

theorem fits_nil {m : Watch} : fits m [] = true ↔ m = .binding ∨ m = .load wordRoles := by simp [fits]

theorem fits_cons {m : Watch} {t : Task} {ts : List Task} :
    fits m (t :: ts) = true ↔ ∃ m', watchTask m t = some m' ∧ fits m' ts = true := by
  simp only [fits, List.foldlM_cons]
  cases watchTask m t <;> simp

theorem bitOfLevel_levelOf (v : Bool) : bitOfLevel (levelOf v) = some v := by cases v <;> rfl

end Sys2Proof.Machine
end

