-- ==== Sys2Proof/Tests/Slice0.lean ====
section
/-! SUPPORT. Tests whose expected values are written out from spec/95_test_vectors.md, and for every obligation with
hypotheses a theorem that shows values meeting all of them (`witness_…`). -/
namespace Sys2Proof.Machine

/-- A literal of 95_test_vectors.md, RS first, DB0 last. -/
def literal (symbols : List Nat) : List Bool := symbols.map (fun n => n == 1)

/-- A block whose `init` is done: bound, Configured, Idle, with a trace that accounts for its pins. -/
def readyState : State :=
  { State.reset with
    configured := true, bind := everyRole (some 7), pin := levelsOfWord 0x080#10,
    trace := .write .e false :: (pinPhaseEvents 0x080#10 ++ strobeEvents) }

/-- The state a result answers. -/
def stateOf : Result → Option State
  | .next t => some t
  | .fault _ => none
  | .refused _ => none

/-- The phase a result answers. -/
def phaseOf (r : Result) : Option (List Task) := (stateOf r).map State.phase

/-- The refusal of a result. -/
def refusalOf : Result → Option Refusal
  | .next _ => none
  | .fault _ => none
  | .refused r => some r

/-- The phase of a word at the start of its transaction, from R66 and R67. -/
def sent (w : Word) : Option (List Task) :=
  some [.pins w [.rs, .rw, .d7, .d6, .d5, .d4, .d3, .d2, .d1, .d0],
    .write .e false, .hold, .write .e true, .hold, .write .e false, .hold]

/-! ### WellFormed: one ill-formed term for each check -/

theorem test_wellformed_nine_bits : wordLengthOk (literal [0, 0, 0, 0, 0, 0, 0, 0, 1]) = false := by decide
theorem test_wellformed_eleven_bits : wordLengthOk (literal [0, 0, 0, 0, 0, 0, 0, 0, 0, 1, 1]) = false := by decide
theorem test_wellformed_cgram_64 : (Command.setCGRAMAddress 64).wf = false := by decide
theorem test_wellformed_ddram_128 : (Command.setDDRAMAddress 128).wf = false := by decide
theorem test_wellformed_data_256 : (Command.writeData 256).wf = false := by decide
theorem test_wellformed_largest : (Command.setCGRAMAddress 63).wf = true ∧ (Command.setDDRAMAddress 127).wf = true ∧
    (Command.writeData 255).wf = true := by decide
theorem test_wellformed_call : (Call.encode (.writeData 256)).wf = false := by decide

/-! ### Decoding: words written out bit by bit (V1, V2, V10) -/

theorem test_decode_clearDisplay :
    decodeBits (literal [0, 0, 0, 0, 0, 0, 0, 0, 0, 1]) = .ok .clearDisplay := by decide
theorem test_decode_returnHome :
    decodeBits (literal [0, 0, 0, 0, 0, 0, 0, 0, 1, 1]) = .ok .returnHome := by decide
theorem test_decode_entryModeSet :
    decodeBits (literal [0, 0, 0, 0, 0, 0, 0, 1, 1, 0]) = .ok (.entryModeSet true false) := by decide
theorem test_decode_displayOnOffControl :
    decodeBits (literal [0, 0, 0, 0, 0, 0, 1, 1, 0, 1]) = .ok (.displayOnOffControl true false true) := by decide
theorem test_decode_cursorDisplayShift :
    decodeBits (literal [0, 0, 0, 0, 0, 1, 0, 1, 0, 0]) = .ok (.cursorDisplayShift false true) := by decide
theorem test_decode_functionSet :
    decodeBits (literal [0, 0, 0, 0, 1, 1, 0, 1, 0, 0]) = .ok (.functionSet true false true) := by decide
theorem test_decode_setCGRAMAddress :
    decodeBits (literal [0, 0, 0, 1, 1, 0, 1, 0, 1, 0]) = .ok (.setCGRAMAddress 0x2A#6) := by decide
theorem test_decode_setDDRAMAddress :
    decodeBits (literal [0, 0, 1, 0, 1, 0, 1, 0, 0, 0]) = .ok (.setDDRAMAddress 40#7) := by decide
theorem test_decode_readBusyFlagAndAddress :
    decodeBits (literal [0, 1, 0, 0, 0, 0, 0, 0, 0, 0]) = .ok .readBusyFlagAndAddress := by decide
theorem test_decode_writeData :
    decodeBits (literal [1, 0, 1, 0, 0, 0, 0, 0, 0, 0]) = .ok (.writeData 0x80#8) := by decide
theorem test_decode_readData :
    decodeBits (literal [1, 1, 0, 0, 0, 0, 0, 0, 0, 0]) = .ok .readData := by decide
/-- R46: the one-bit neighbour of ReturnHome is no instruction. -/
theorem test_decode_noncanonical :
    decodeBits (literal [0, 0, 0, 0, 0, 0, 0, 0, 1, 0]) = .error (.nonCanonical 0x002#10) := by decide
theorem test_decode_malformed : decodeBits (literal [0, 0, 0, 0, 0, 0, 0, 0, 1]) = .error (.malformedLength 9) := by
  decide
theorem test_decode_table_word :
    decodeTableWord 16 0x0241 = some (.writeData 0x41#8) ∧ decodeTableWord 10 0x0A8 = some (.setDDRAMAddress 40#7) ∧
      decodeTableWord 16 0x0401 = none := by decide

/-! ### Instructions: the transaction each one starts -/

theorem test_exec_clearDisplay : phaseOf (exec .clearDisplay readyState) = sent 0x001#10 := by decide
theorem test_exec_returnHome : phaseOf (exec .returnHome readyState) = sent 0x003#10 := by decide
theorem test_exec_entryModeSet : phaseOf (exec (.entryModeSet false true) readyState) = sent 0x005#10 := by decide
theorem test_exec_displayOnOffControl :
    phaseOf (exec (.displayOnOffControl true true false) readyState) = sent 0x00E#10 := by decide
theorem test_exec_cursorDisplayShift : phaseOf (exec (.cursorDisplayShift true false) readyState) = sent 0x018#10 := by
  decide
theorem test_exec_functionSet : phaseOf (exec (.functionSet true true false) readyState) = sent 0x038#10 := by decide
theorem test_exec_setCGRAMAddress : phaseOf (exec (.setCGRAMAddress 0x15#6) readyState) = sent 0x055#10 := by decide
theorem test_exec_setDDRAMAddress : phaseOf (exec (.setDDRAMAddress 127#7) readyState) = sent 0x0FF#10 := by decide
theorem test_exec_readBusyFlagAndAddress : phaseOf (exec .readBusyFlagAndAddress readyState) = sent 0x100#10 := by
  decide
theorem test_exec_writeData : phaseOf (exec (.writeData 0x69#8) readyState) = sent 0x269#10 := by decide
theorem test_exec_readData : phaseOf (exec .readData readyState) = sent 0x300#10 := by decide

/-- V4: in Unconfigured nothing is sent, and no state changes but the answer. -/
theorem test_exec_unconfigured :
    (stateOf (exec .clearDisplay State.reset)).map (fun t => { t with answer := none }) = some State.reset := by decide
/-- V4: in Configured, 9 bits, 11 bits and no bits start nothing. -/
theorem test_send_malformed :
    phaseOf (send (literal [0, 0, 0, 0, 0, 0, 0, 0, 1]) readyState) = some [] ∧
      phaseOf (send (literal [0, 0, 0, 0, 0, 0, 0, 0, 0, 1, 1]) readyState) = some [] ∧
      phaseOf (send [] readyState) = some [] := by decide
/-- V3: a word that no row accepts is sent all the same. -/
theorem test_send_noncanonical :
    phaseOf (execCall (.send (literal [1, 1, 1, 1, 1, 1, 1, 1, 1, 1])) readyState) = sent 0x3FF#10 := by decide

/-! ### One step at a time -/

/-- A pin write takes the role its free value says, with the word's bit. -/
theorem test_step_pin :
    (stateOf (stepWith { pinWrite := 2, bindCall := 0, stop := false }
        { readyState with phase := [.pins 0x241#10 [.rs, .d6, .d0], .hold] })).map
      (fun t => (t.phase, t.pin.d0, t.pin.rs)) =
    some ([.pins 0x241#10 [.rs, .d6], .hold], .high, .low) := by decide
/-- R67: the second `Write(E, ...)` raises Enable. -/
theorem test_step_strobe :
    (stateOf (step { readyState with phase := [.write .e true, .hold] })).map (fun t => (t.phase, t.pin.e)) =
      some ([.hold], .high) := by decide
/-- R71: the last hold ends the call. -/
theorem test_step_last_hold :
    (stateOf (step { readyState with phase := [.hold] })).map (fun t => (t.phase, t.trace.getLast?)) =
      some ([], some .hold) := by decide
/-- R115: a call out that never returns. -/
theorem test_step_hangs :
    stateOf (step { readyState with phase := [.hold], hang := some 0 }) = none := by decide
/-- A word placed for the next step runs as the first instruction after reset, and in Configured. -/
theorem test_step_fetch_word :
    phaseOf (step (State.reset.withFetchWord 16 0x0001)) = some [] ∧
      phaseOf (step (readyState.withFetchWord 16 0x0001)) = sent 0x001#10 := by decide
/-- R121. -/
theorem test_step_early :
    refusalOf (step { readyState with phase := [.hold], program := [⟨.clearDisplay, false⟩] }) =
      some .operationWhileRunning := by decide
/-- R52: an encoder function presented while a call runs returns its word, and the running call keeps its place. -/
theorem test_step_encode_while_running :
    (stateOf (step { readyState with
        phase := [.write .e false, .hold], program := [⟨.encode (.setDDRAMAddress 80), false⟩] })).map
      (fun t => (t.phase, t.encoded, t.answer, t.program)) =
    some ([.write .e false, .hold], some 0x0D0#10, none, []) := by decide
/-- The same function presented by a host that waits is not evaluated yet: the running call goes on. -/
theorem test_step_encode_waits :
    (stateOf (step { readyState with
        phase := [.write .e false, .hold], program := [⟨.encode (.setDDRAMAddress 80), true⟩] })).map
      (fun t => (t.phase, t.encoded)) = some ([.hold], none) := by decide
/-- R78: the first failure, when binding stops there. -/
theorem test_step_failed_open :
    (stateOf (stepWith { pinWrite := 0, bindCall := 0, stop := true }
        { State.reset with phase := .bindPins (newJob (everyRole 4) (everyRole .openFails)) :: bringUp Cfg.reset })).map
      (fun t => (t.phase, t.answer, t.trace)) =
    some ([], some .initFailed, [.openPin .rs 4]) := by decide
/-- R77: `bind[r]` is set once the role has been set to output. -/
theorem test_step_set_output :
    (stateOf (stepWith { pinWrite := 0, bindCall := 1, stop := false }
        { State.reset with
          phase := [.bindPins
            { ids := everyRole 4, gpio := everyRole (.bound 9), toOpen := [.d7], toSet := [.rw], failed := false }] })).map
      (fun t => (t.bind.rw, t.bind.d7, t.trace)) =
    some (some 9, none, [.setOutput .rw]) := by decide
/-- R77 step 3. -/
theorem test_step_mark :
    (stateOf (step { State.reset with phase := [.markConfigured, .hold] })).map (fun t => (t.phase, t.configured)) =
      some ([.hold], true) := by decide

/-! ### Operations -/

/-- V5: rows and columns are clamped, the column at 40 and not at 39. -/
theorem test_cursor_clamp :
    phaseOf (execCall (.setCursorPosition 1 39) readyState) = sent 0x0CF#10 ∧
      phaseOf (execCall (.setCursorPosition 5 99) readyState) = sent 0x0D0#10 := by decide
/-- V5: single-line mode forces row 0. -/
theorem test_cursor_single_line :
    phaseOf (execCall (.setCursorPosition 1 15) { readyState with cfg := { Cfg.reset with lineCount := false } }) =
      sent 0x08F#10 := by decide
/-- V7, S9: the text and then address 40, also in single-line mode. -/
theorem test_writeLine :
    phaseOf (execCall (.writeLine [0x41#8]) { readyState with cfg := { Cfg.reset with lineCount := false } }) =
      some (transaction 0x241#10 ++ transaction 0x0A8#10) := by decide
theorem test_write_order :
    phaseOf (execCall (.write [0x48#8, 0x69#8]) readyState) =
      some (transaction 0x248#10 ++ transaction 0x269#10) := by decide
/-- R83: the empty text sends nothing and the call returns. -/
theorem test_write_empty : phaseOf (execCall (.write []) readyState) = some [] := by decide
/-- V8: blinking on, from reset values. -/
theorem test_blink :
    phaseOf (execCall .startCursorBlinking readyState) = sent 0x00F#10 ∧
      phaseOf (execCall .turnDisplayOff readyState) = sent 0x00A#10 := by decide
theorem test_font :
    phaseOf (execCall .switchTo5x10Font readyState) = sent 0x03C#10 ∧
      phaseOf (execCall .switchToSingleLines readyState) = sent 0x030#10 := by decide
/-- R88: the flag is written, its neighbours are not. -/
theorem test_toggle_flag :
    (stateOf (execCall .turnCursorOff readyState)).map (fun t => (t.cfg.displayOn, t.cfg.cursorOn, t.cfg.cursorBlink)) =
      some (true, false, false) := by decide
theorem test_init_refused :
    refusalOf (execCall (.init (everyRole 0) (everyRole (.bound 0))) readyState) = some .initWhileConfigured := by decide
theorem test_encode_word :
    (stateOf (execCall (.encode (.setDDRAMAddress 80)) State.reset)).map State.encoded =
      some (some 0x0D0#10) := by decide
theorem test_encode_refused :
    refusalOf (execCall (.encode (.setCGRAMAddress 64)) readyState) = some .encoderArgumentOutOfRange := by decide

/-- R106: the condition is told only when results are strict. -/
theorem test_report : reportUnder true .notConfigured = .notConfigured ∧ reportUnder false .notConfigured = .silent := by
  decide

/-- R69: the bus at `Write(E, 1)`, the lines written last to first. -/
theorem test_transmitted :
    transmitted (everyRole .unknown) ((pinPhaseEvents 0x248#10).reverse ++ strobeEvents) = [some 0x248#10] := by decide

/-! ### States that meet the hypotheses of the obligations -/

/-- ControlCommandsSendTheirWords, AddressCommandsSendTheirWords, DataAndReadCommandsSendTheirWords,
ClearDisplaySendsOneWord, HelpersSendTheConfigurationWords, SetCursorPositionSendsTheClampedAddress,
WriteSendsEachCodeInOrder, WriteLineEndsAtAddressForty, DisplayTogglesWriteOneFlagAndSend,
TextTogglesWriteOneFlagAndSend: a state that is Ready (for their Unconfigured clauses see `witness_unconfigured`). -/
theorem witness_ready : Ready readyState := ⟨rfl, rfl, rfl, rfl⟩

/-- The same in single-line mode (SetCursorPositionSendsTheClampedAddress, WriteLineEndsAtAddressForty). -/
theorem witness_ready_single_line : Ready { readyState with cfg := { Cfg.reset with lineCount := false } } :=
  ⟨rfl, rfl, rfl, rfl⟩

/-- The invariant of a Configured state, from facts that are decided. -/
theorem inv_of_configured {s : State} (m : Watch) (w : Word) (hc : s.configured = true)
    (h1 : s.pin = pinsAfter (everyRole .unknown) s.trace) (h2 : s.cfg.bitWidth = true)
    (h3 : watch .binding s.trace = some m ∧ fits m s.phase = true) (h4 : s.bind = everyRole (some 7))
    (h5 : ∀ t ∈ s.phase, t.ofTransaction = true) (h6 : pinsAtEnd s.pin s.phase = levelsOfWord w)
    (h7 : s.answer = none) : BlockInv s where
  lastWritten := h1
  eightBit := h2
  defaults h := by simp [hc] at h
  protocol := ⟨m, h3⟩
  unconfigured h := by simp [hc] at h
  bound _ r := by rw [h4]; cases r <;> rfl
  sending _ := h5
  settled _ := by
    rw [h6]
    have hl : ∀ v, levelOf v ≠ .unknown := by decide
    exact ⟨rfl, fun r => by cases r <;> first | exact hl _ | exact Level.noConfusion⟩
  suspended _ := h7

/-- HelpersSendTheConfigurationWords, TextTogglesWriteOneFlagAndSend: the same state meets the invariant. -/
theorem witness_inv_ready : BlockInv readyState :=
  inv_of_configured (.load wordRoles) 0x080#10 rfl (by decide) rfl (by decide) rfl (by decide) (by decide) rfl

theorem witness_inv_fresh : BlockInv (freshBlock [] none) where
  lastWritten := rfl
  eightBit := rfl
  defaults _ := rfl
  protocol := ⟨.binding, rfl, by decide⟩
  unconfigured _ := .inl ⟨rfl, rfl, rfl⟩
  bound h := by simp [freshBlock, State.reset] at h
  sending h := by simp [freshBlock, State.reset] at h
  settled h := by simp [freshBlock, State.reset] at h
  suspended h := by simp [freshBlock, State.reset] at h

/-- The ready block after the pin phase of 0x241 and the first `k` events of its strobe. -/
def strobing (k : Nat) : State :=
  { readyState with
    pin := pinsAfter (levelsOfWord 0x241#10) (strobeEvents.take k),
    trace := readyState.trace ++ pinPhaseEvents 0x241#10 ++ strobeEvents.take k,
    phase := strobe.drop k }

theorem witness_inv_strobing : ∀ k : Fin 6, BlockInv (strobing k) := by
  intro k
  have hm : ∃ m, watch .binding (strobing k).trace = some m ∧ fits m (strobing k).phase = true := by
    fin_cases k
    · exact ⟨.load [], by decide⟩
    · exact ⟨.low1, by decide⟩
    · exact ⟨.held1, by decide⟩
    · exact ⟨.raised, by decide⟩
    · exact ⟨.held2, by decide⟩
    · exact ⟨.low2, by decide⟩
  obtain ⟨m, hm⟩ := hm
  refine inv_of_configured m 0x241#10 rfl ?_ rfl hm rfl ?_ ?_ rfl
  · clear hm; revert k; decide
  · clear hm; revert k; decide
  · clear hm; revert k; decide

/-- EveryStepKeepsTheInvariant, BindingIsImmutableOnceConfigured: a step from a state that meets the invariant. -/
theorem witness_inv_step : ∃ t, BlockInv (strobing 2) ∧ (strobing 2).configured = true ∧ step (strobing 2) = .next t :=
  ⟨_, witness_inv_strobing 2, rfl, rfl⟩

/-- LinesAreSteadyDuringTheStrobe, at each of its six places. -/
theorem witness_steady :
    watch .binding (strobing 0).trace = some (.load []) ∧ watch .binding (strobing 1).trace = some .low1 ∧
    watch .binding (strobing 2).trace = some .held1 ∧ watch .binding (strobing 3).trace = some .raised ∧
    watch .binding (strobing 4).trace = some .held2 ∧ watch .binding (strobing 5).trace = some .low2 := by decide
theorem witness_steady_steps : ∀ k : Fin 6, BlockInv (strobing k) ∧ ∃ t, step (strobing k) = .next t :=
  fun k => ⟨witness_inv_strobing k, by fin_cases k <;> exact ⟨_, rfl⟩⟩
theorem witness_steady_role : Role.d0 ≠ Role.e := by decide

/-- DecodingInvertsEncoding, at the largest operands. -/
theorem witness_wf : (Instr.setCGRAMAddress 63#6).wf = true ∧ (Instr.setDDRAMAddress 127#7).wf = true ∧
    (Instr.writeData 255#8).wf = true ∧ Instr.clearDisplay.wf = true := by decide

/-- EncoderReturnsTheWordAndTouchesNothing, EncoderRefusesWideArguments, at the boundaries. -/
theorem witness_encoder_bounds : 63 < 64 ∧ 127 < 128 ∧ 255 < 256 ∧
    refusalOf (opEncode (.setCGRAMAddress 64) readyState) = some .encoderArgumentOutOfRange ∧
    refusalOf (opEncode (.setDDRAMAddress 128) readyState) = some .encoderArgumentOutOfRange ∧
    refusalOf (opEncode (.writeData 256) readyState) = some .encoderArgumentOutOfRange ∧
    refusalOf (opEncode (.writeData 255) readyState) = none := by decide

/-- StepRunsTheDecodedInstruction, each clause. -/
theorem witness_step_presents :
    ∃ s : State, s.phase = [] ∧ s.program = [⟨.send (literal [0, 0, 1, 0, 0, 0, 0, 0, 0, 0]), false⟩] ∧
      decodeBits (literal [0, 0, 1, 0, 0, 0, 0, 0, 0, 0]) = .ok (.setDDRAMAddress 0#7) :=
  ⟨freshBlock [⟨.send (literal [0, 0, 1, 0, 0, 0, 0, 0, 0, 0]), false⟩] none, rfl, rfl, by decide⟩
theorem witness_step_table : decodeTableWord 16 0x2FF = some (.writeData 0xFF#8) := by decide

/-- StepOtherwiseRunsThePhase, each clause. -/
theorem witness_step_idle : readyState.phase = [] ∧ readyState.program = [] := by decide
theorem witness_step_running :
    (strobing 5).phase = [.hold] ∧ presentsEarly (strobing 5) = false := by decide

/-- InstructionFrame, in Configured and in Unconfigured. -/
theorem witness_frame : (∃ t, exec .readData readyState = .next t) ∧ ∃ t, exec (.writeData 0#8) State.reset = .next t :=
  ⟨⟨_, rfl⟩, ⟨_, rfl⟩⟩

/-- InstructionsInUnconfiguredDoNothing, OperationsInUnconfiguredDoNothing, ConditionsAreToldExactlyWhenResultsAreStrict. -/
theorem witness_unconfigured : State.reset.configured = false ∧ State.reset.phase = [] ∧
    isInit (.writeLine []) = false ∧ ∀ e, Call.writeLine [] ≠ .encode e := by simp [State.reset, isInit]

/-- SendTransmitsOrDoesNothing, ConditionsAreToldExactlyWhenResultsAreStrict, each clause, its lengths next to 10. -/
theorem witness_send : readyState.phase = [] ∧ Ready readyState ∧ (literal [1, 1, 1, 1, 1, 1, 1, 1, 1, 1]).length = 10 :=
  ⟨rfl, witness_ready, rfl⟩
theorem witness_send_malformed : readyState.configured = true ∧ readyState.phase = [] ∧
    (literal [0, 0, 0, 0, 0, 0, 0, 0, 1]).length ≠ 10 ∧ (literal [0, 0, 0, 0, 0, 0, 0, 0, 0, 0, 1]).length ≠ 10 := by decide
theorem witness_send_unconfigured : State.reset.configured = false ∧ State.reset.phase = [] := by decide

/-- TransmittedWordIsTheWordSent, EveryWriteOrderIsPossible: an order that is not the displayed one. -/
theorem witness_order : (pinPhaseEvents 0x2AA#10).reverse.Perm (pinPhaseEvents 0x2AA#10) := List.reverse_perm _
theorem witness_order_state :
    ∃ s : State, s.phase = .pins 0x2AA#10 wordRoles :: strobe ∧ s.hang = none ∧ presentsEarly s = false :=
  ⟨{ readyState with phase := transaction 0x2AA#10 }, rfl, rfl, rfl⟩

/-- TransactionSuspendsUntilTheLastHold, first and last step. -/
theorem witness_suspends : Ready readyState ∧ (∃ t, exec .clearDisplay readyState = .next t) ∧ 0 < 16 ∧ 15 < 16 :=
  ⟨witness_ready, ⟨_, rfl⟩, by decide, by decide⟩

/-- CallsWhileRunningAreRefused, each clause. -/
theorem witness_running : (strobing 5).phase ≠ [] ∧ ∀ e, Call.clearDisplay ≠ .encode e := by
  refine ⟨by decide, by simp⟩
theorem witness_running_early :
    ∃ s : State, s.phase ≠ [] ∧ s.program = [⟨.write [], false⟩] ∧ ∀ e, Call.write [] ≠ .encode e :=
  ⟨{ strobing 5 with program := [⟨.write [], false⟩] }, by decide, rfl, by simp⟩

/-- EncoderIsEvaluatedWhateverRuns, while a call runs and Idle. -/
theorem witness_encoder_running :
    ∃ s : State, s.phase ≠ [] ∧ s.program = [⟨.encode (Instr.writeData 0xFF#8).toCommand, false⟩] :=
  ⟨{ strobing 5 with program := [⟨.encode (Instr.writeData 0xFF#8).toCommand, false⟩] }, by decide, rfl⟩
theorem witness_encoder_idle :
    ∃ s : State, s.phase = [] ∧ s.program = [⟨.encode Instr.clearDisplay.toCommand, true⟩] :=
  ⟨{ readyState with program := [⟨.encode Instr.clearDisplay.toCommand, true⟩] }, rfl, rfl⟩

/-- ThreeEncoderRulesAsWritten: words its rows accept. -/
theorem witness_encoder_rows : decodeWord 0x006#10 = some (.entryModeSet true false) ∧
    decodeWord 0x00B#10 = some (.displayOnOffControl false true true) := by decide

/-- InitIsRefusedExactlyInConfigured, on both sides. -/
theorem witness_init_refused : readyState.phase = [] ∧ readyState.configured = true ∧ State.reset.phase = [] ∧
    State.reset.configured = false := by decide

/-- InitBringsUpTheDisplay. -/
theorem witness_init : BlockInv (freshBlock [] none) ∧ (freshBlock [] none).configured = false ∧
    (freshBlock [] none).phase = [] ∧ (freshBlock [] none).hang = none ∧ presentsEarly (freshBlock [] none) = false ∧
    allSucceed (everyRole (.bound 3)) :=
  ⟨witness_inv_fresh, rfl, rfl, rfl, rfl, fun r => ⟨3, by cases r <;> rfl⟩⟩

/-- FailedInitLeavesTheBlockAsItWas: one role that fails, at `Open` and at `SetOutput`. -/
theorem witness_init_fails : BlockInv (freshBlock [] none) ∧ (freshBlock [] none).configured = false ∧
    (freshBlock [] none).phase = [] ∧ (freshBlock [] none).hang = none ∧ presentsEarly (freshBlock [] none) = false ∧
    ¬ allSucceed { everyRole (BindAnswer.bound 3) with d0 := .openFails } ∧
    ¬ allSucceed { everyRole (BindAnswer.bound 3) with rs := .setOutputFails } := by
  refine ⟨witness_inv_fresh, rfl, rfl, rfl, rfl, fun h => ?_, fun h => ?_⟩
  · obtain ⟨h, e⟩ := h .d0
    simp [PerRole.get] at e
  · obtain ⟨h, e⟩ := h .rs
    simp [PerRole.get] at e

/-- EveryBindingOrderIsPossible: all roles opened, then all set to output. -/
theorem witness_binding_order : AllowedBinding (everyRole (.bound 3))
    (allRoles.map BindCall.openPin ++ allRoles.map BindCall.setOutput) := by
  refine ⟨by decide, fun before r after h => ⟨?_, by cases r <;> simp [everyRole, PerRole.get]⟩⟩
  rcases List.append_eq_append_iff.mp h with ⟨rest, hb, _⟩ | ⟨rest, hb, hr⟩
  · rw [hb]
    cases r <;> simp [allRoles]
  · cases rest with
    | nil => rw [List.append_nil] at hb; rw [← hb]; cases r <;> simp [allRoles]
    | cons c rest =>
      have hm : BindCall.setOutput r ∈ allRoles.map BindCall.openPin := by
        rw [hb]
        simp only [List.cons_append, List.cons.injEq] at hr
        simp [hr.1]
      simp at hm

/-- A binding in which the `Open` of D0 fails. -/
def failingGpio : PerRole BindAnswer := { everyRole (BindAnswer.bound 3) with d0 := .openFails }

/-- FailedBindingMayEndOrGoOn: after the failing call, and with a further call to come. -/
theorem witness_failed_binding : AllowedBinding failingGpio [.openPin .rs, .openPin .d0] ∧
    (∃ c ∈ [BindCall.openPin .rs, .openPin .d0], bindCallFails failingGpio c = true) ∧
    AllowedBinding failingGpio ([.openPin .rs, .openPin .d0] ++ [.openPin .rw]) := by
  refine ⟨⟨by decide, fun before r after h => ?_⟩, ⟨.openPin .d0, by simp, by decide⟩, ⟨by decide, fun before r after h => ?_⟩⟩ <;>
  · have hm := congrArg (fun l => decide (BindCall.setOutput r ∈ l)) h
    simp at hm

/-- The start of a binding, for both statements about its order. -/
theorem witness_binding_state :
    ∃ s : State, s.phase = .bindPins (newJob (everyRole 4) failingGpio) :: bringUp Cfg.reset ∧ s.hang = none ∧
      presentsEarly s = false :=
  ⟨{ State.reset with phase := .bindPins (newJob (everyRole 4) failingGpio) :: bringUp Cfg.reset }, rfl, rfl, rfl⟩

/-- CursorClampLaw, each clause at its boundary: row 2, column 41, single-line mode. -/
theorem witness_clamp : 1 < 2 ∧ 40 < 41 ∧
    ({ readyState with cfg := { Cfg.reset with lineCount := false } } : State).cfg.lineCount = false := by decide

/-- CallCountsAndLeastTime. -/
theorem witness_counts : Ready readyState ∧ isInit (.writeLine [0#8]) = false ∧ (Call.writeLine [0#8]).wf = true ∧
    (Call.encode (.writeData 255)).wf = true := ⟨witness_ready, by decide⟩

/-- SessionTransmitsTheConcatenation, FreshSessionTransmitsBringUpThenCalls. -/
theorem witness_session :
    ∃ (s : State) (calls : List Call), calls = [.turnDisplayOff, .write [0x41#8], .send [true]] ∧
      s.configured = true ∧ s.phase = [] ∧ s.hang = none ∧
      s.program = calls.map (fun c => ({ call := c, waits := true } : Request)) ∧
      ∀ c ∈ calls, isInit c = false ∧ c.wf = true :=
  ⟨{ readyState with program :=
      [⟨.turnDisplayOff, true⟩, ⟨.write [0x41#8], true⟩, ⟨.send [true], true⟩] }, _, rfl, rfl, rfl, rfl, rfl, by decide⟩
theorem witness_fresh_session : allSucceed (everyRole (.bound 3)) ∧
    ∀ c ∈ [Call.clearDisplay, Call.setCursorPosition 9 9], isInit c = false ∧ c.wf = true :=
  ⟨fun r => ⟨3, by cases r <;> rfl⟩, by decide⟩

/-- ConfiguredIsSetOnlyByInitAndNeverCleared, each clause. -/
theorem witness_configured_set :
    ∃ s t : State, step s = .next t ∧ s.configured = false ∧ t.configured = true :=
  ⟨{ State.reset with phase := [.markConfigured] }, _, rfl, rfl, rfl⟩
theorem witness_configured_kept : ∃ t, step readyState = .next t ∧ readyState.configured = true := ⟨_, rfl, rfl⟩

/-- FlagsChangeOnlyByToggles. -/
theorem witness_flag_changes :
    ∃ s t : State, step s = .next t ∧ t.cfg ≠ s.cfg :=
  ⟨{ readyState with program := [⟨.switchToSingleLines, true⟩] }, _, rfl, by decide⟩

/-- EachStepEmitsAtMostOneEvent, Idle and running. -/
theorem witness_event : (∃ t, step (strobing 0) = .next t) ∧ ∃ t, step readyState = .next t ∧ readyState.phase = [] :=
  ⟨⟨_, rfl⟩, ⟨_, rfl, rfl⟩⟩

/-- A block in front of a host that initializes it. -/
def startingBlock : State := freshBlock [⟨.init (everyRole 4) (everyRole (.bound 9)), true⟩] none

/-- The `init` of the starting block reaches step 4, in whatever order the bindings come. -/
theorem starting_run : ∃ b tr ch, runSteps 25 startingBlock = .next
    { State.reset with
      configured := true, bind := b, pin := (everyRole .unknown).set .e .low,
      phase := transactions (bringUpWords Cfg.reset), trace := tr, choices := ch } := by
  obtain ⟨b, tr, ch, h⟩ := binding_ends (bringUp Cfg.reset) (gpio := everyRole (.bound 9))
    (fun r => ⟨9, by cases r <;> rfl⟩) 22 (newJob (everyRole 4) (everyRole (.bound 9)))
    { State.reset with
      phase := .bindPins (newJob (everyRole 4) (everyRole (.bound 9))) :: bringUp Cfg.reset, answer := none }
    rfl rfl rfl (by decide) rfl rfl rfl
  have h0 : step startingBlock = .next
      { State.reset with
        phase := .bindPins (newJob (everyRole 4) (everyRole (.bound 9))) :: bringUp Cfg.reset, answer := none } := rfl
  refine ⟨b, tr ++ [.write .e false], ch, ?_⟩
  rw [show 25 = 22 + 2 + 1 by rfl, runSteps_succ h0, runSteps_add h]
  rfl

/-- EveryRunFollowsTheBusProtocol, EnableIsHighOnlyInTheSecondHold (first part), ConfiguredIdleBlockIsFullyKnown: a run
that ends Configured and Idle. -/
theorem witness_run_configured :
    ∃ n s, runSteps n startingBlock = .next s ∧ s.configured = true ∧ s.phase = [] := by
  obtain ⟨b, tr, ch, h⟩ := starting_run
  obtain ⟨p, tr', ch', g⟩ := transactions_end [] [0x038#10, 0x00E#10, 0x006#10, 0x080#10] 0x001#10
    { State.reset with
      configured := true, bind := b, pin := (everyRole .unknown).set .e .low,
      phase := transactions (bringUpWords Cfg.reset), trace := tr, choices := ch } rfl rfl rfl
  exact ⟨25 + 80, _, by rw [runSteps_add h]; exact g, rfl, rfl⟩

/-- EnableIsHighOnlyInTheSecondHold (second part): a run that ends with Enable high. -/
theorem witness_run_raised : ∃ n s, runSteps n startingBlock = .next s ∧ s.pin.e = .high := by
  obtain ⟨b, tr, ch, h⟩ := starting_run
  obtain ⟨writes, p, _, _, g⟩ := pinPhase_runs 0x001#10
    (strobe ++ transactions [0x038#10, 0x00E#10, 0x006#10, 0x080#10]) wordRoles
    { State.reset with
      configured := true, bind := b, pin := (everyRole .unknown).set .e .low,
      phase := transactions (bringUpWords Cfg.reset), trace := tr, choices := ch }
    (by decide) (by decide) rfl rfl rfl
  refine ⟨25 + (wordRoles.length + 3), _, by rw [runSteps_add h, runSteps_add g]; rfl, rfl⟩

/-- WithoutInitNothingEverHappens: a run of two steps. -/
theorem witness_no_init :
    (∀ q ∈ [(⟨.clearDisplay, true⟩ : Request), ⟨.write [0x41#8], false⟩], isInit q.call = false) ∧
      ∃ s, runSteps 2 (freshBlock [⟨.clearDisplay, true⟩, ⟨.write [0x41#8], false⟩] none) = .next s :=
  ⟨by decide, ⟨_, rfl⟩⟩

/-- MachineIsStuckOnlyInACallThatNeverReturns, each clause. -/
theorem witness_stuck : ∃ f, step { strobing 5 with hang := some 0 } = .fault f := ⟨_, rfl⟩
theorem witness_stuck_tasks :
    ∀ t ∈ [Task.write .e true, Task.hold, Task.pins 0x001#10 [.d0],
        Task.bindPins (newJob (everyRole 0) (everyRole (.bound 1)))],
      ∃ s : State, s.phase = [t] ∧ s.hang = some 0 ∧ presentsEarly s = false :=
  fun t _ => ⟨{ State.reset with phase := [t], hang := some 0 }, rfl, rfl, rfl⟩
theorem witness_stuck_binding : enabledCalls (newJob (everyRole 0) (everyRole (.bound 1))) ≠ [] := by decide

/-- StepsAreRefusedOnlyOutsideTheContract, each clause. -/
theorem witness_refused :
    refusalOf (step { strobing 5 with program := [⟨.clearDisplay, false⟩] }) = some .operationWhileRunning ∧
      refusalOf (step { readyState with program := [⟨.init (everyRole 0) (everyRole (.bound 1)), true⟩] }) =
        some .initWhileConfigured ∧
      refusalOf (step { readyState with program := [⟨.encode (.writeData 256), true⟩] }) =
        some .encoderArgumentOutOfRange ∧
      refusalOf (step { strobing 5 with program := [⟨.encode (.setCGRAMAddress 64), false⟩] }) =
        some .encoderArgumentOutOfRange := by decide

/-- EveryRunningCallReturns, running and Idle. -/
theorem witness_returns : (strobing 0).hang = none ∧ presentsEarly (strobing 0) = false ∧ (strobing 0).phase ≠ [] ∧
    readyState.hang = none ∧ presentsEarly readyState = false := by decide

end Sys2Proof.Machine
end

section
/-! PROOFS (00_scope.md R9; 10_state.md R21, R22). The event one step emits: `stepWith_emits` says once, for any open
choices, how a step extends the trace and moves the pins. -/
namespace Sys2Proof.Machine

/-! ### Small lemmas -/

@[simp] theorem bindGoesOn_trace (stop : Bool) (j : BindJob) (ts : List Task) (s : State) :
    (bindGoesOn stop j ts s).trace = s.trace := by
  unfold bindGoesOn
  split_ifs <;> simp

@[simp] theorem bindGoesOn_pin (stop : Bool) (j : BindJob) (ts : List Task) (s : State) :
    (bindGoesOn stop j ts s).pin = s.pin := by
  unfold bindGoesOn
  split_ifs <;> simp

/-- R9, R21: a binding call moves no pin. -/
@[simp] theorem seeEvent_bindEvent (p : PerRole Level) (j : BindJob) (c : BindCall) :
    seeEvent p (bindEvent j c) = p := by cases c <;> rfl

@[simp] theorem pinsAfter_nil (p : PerRole Level) : pinsAfter p [] = p := rfl

@[simp] theorem pinsAfter_singleton (p : PerRole Level) (ev : Event) : pinsAfter p [ev] = seeEvent p ev := rfl

/-! ### Emission -/

/-- `t` comes from `s` by the events `evs`: they end its trace, and its pins are those of `s` after them. -/
def Emits (s : State) (evs : List Event) (t : State) : Prop :=
  t.trace = s.trace ++ evs ∧ t.pin = pinsAfter s.pin evs

theorem Emits.of_unchanged {s t : State} (ht : t.trace = s.trace) (hp : t.pin = s.pin) : Emits s [] t :=
  ⟨by simpa using ht, hp⟩

/-- Accepting a call emits nothing (log 2). -/
theorem execCall_emits_nothing {c : Call} {s t : State} (hp : s.phase = []) (h : execCall c s = .next t) :
    Emits s [] t := by
  rcases execCall_cases hp h with
    ⟨_, _, _, _, rfl⟩ | ⟨_, _, rfl⟩ | ⟨_, rfl, _⟩ | ⟨_, _, rfl⟩ | ⟨_, _, _, rfl⟩
  case inr.inl => exact .of_unchanged (startWords_trace _ _) (startWords_pin _ _)
  all_goals exact .of_unchanged rfl rfl

/-- R22: a task makes one call out, or none when its list is empty or it only marks the block configured. -/
theorem runTask_emits {k : Choice} {t : Task} {ts : List Task} {s u : State} (h : runTask k t ts s = .next u) :
    ∃ evs, evs.length ≤ 1 ∧ Emits s evs u := by
  rcases runTask_cases h with ⟨j, _, _, rfl⟩ | ⟨j, c, _, _, _, rfl⟩ | ⟨w, _, rfl⟩ | ⟨w, r, _, _, _, _, rfl⟩ |
    ⟨r, v, _, _, rfl⟩ | ⟨_, _, rfl⟩ | ⟨_, rfl⟩
  · exact ⟨[], by simp, .of_unchanged (by simp) (by simp)⟩
  · exact ⟨[bindEvent j c], by simp, by simp, by simp⟩
  · exact ⟨[], by simp, .of_unchanged (by simp) (by simp)⟩
  · exact ⟨[.write r (wordBit w r)], by simp, by simp, by simp [seeEvent]⟩
  · exact ⟨[.write r v], by simp, by simp, by simp [seeEvent]⟩
  · exact ⟨[.hold], by simp, by simp, by simp [seeEvent]⟩
  · exact ⟨[], by simp, .of_unchanged (by simp) (by simp)⟩

/-- R9, R21: under any open choices a step emits at most one event, and an Idle block's step none (log 2). -/
theorem stepWith_emits {k : Choice} {s t : State} (h : stepWith k s = .next t) :
    ∃ evs, evs.length ≤ 1 ∧ Emits s evs t ∧ (s.phase = [] → evs = []) := by
  rcases stepWith_cases h with
    ⟨_, _, rfl⟩ | ⟨q, rest, hp, _, hc⟩ | ⟨_, _, _, _, _, rfl⟩ | ⟨_, _, hp, _, hr⟩
  · exact ⟨[], by simp, .of_unchanged rfl rfl, fun _ => rfl⟩
  · exact ⟨[], by simp, execCall_emits_nothing (s := { s with program := rest }) hp hc, fun _ => rfl⟩
  · exact ⟨[], by simp, .of_unchanged rfl rfl, fun _ => rfl⟩
  · obtain ⟨evs, hlen, hemits⟩ := runTask_emits hr
    exact ⟨evs, hlen, hemits, fun hidle => by simp [hidle] at hp⟩

/-- Settles O46: the step is `stepWith` under the choices of the block, and `stepWith_emits` holds under any. -/
theorem eachStepEmitsAtMostOneEvent : Obligations.EachStepEmitsAtMostOneEvent := by
  intro s t h
  obtain ⟨evs, hlen, ⟨htrace, hpin⟩, hidle⟩ := stepWith_emits h
  exact ⟨evs, hlen, htrace, hpin, hidle⟩

end Sys2Proof.Machine
end

section
/-! PROOFS (10_state.md R12, R16, R19 to R22, R27; 42_controller_operations.md R77, R96). What every step keeps: which
steps touch `configured`, the flags and the binding, and the block's invariant. -/
namespace Sys2Proof.Machine

/-! ### Where binding goes on -/

@[simp] theorem bindGoesOn_configured (stop : Bool) (j : BindJob) (ts : List Task) (s : State) :
    (bindGoesOn stop j ts s).configured = s.configured := by
  unfold bindGoesOn
  split_ifs <;> simp

@[simp] theorem bindGoesOn_cfg (stop : Bool) (j : BindJob) (ts : List Task) (s : State) :
    (bindGoesOn stop j ts s).cfg = s.cfg := by
  unfold bindGoesOn
  split_ifs <;> simp

/-! ### The fields a step leaves alone -/

/-- Accepting a call does not touch `configured` or the binding, and writes a flag only in Configured. -/
theorem execCall_frame {c : Call} {s t : State} (hp : s.phase = []) (h : execCall c s = .next t) :
    t.configured = s.configured ∧ t.bind = s.bind ∧
      (t.cfg = s.cfg ∨ (s.configured = true ∧ t.cfg = acceptedCfg s.cfg c)) := by
  rcases execCall_cases hp h with
    ⟨_, _, _, _, rfl⟩ | ⟨hc, _, rfl⟩ | ⟨_, rfl, _⟩ | ⟨_, _, rfl⟩ | ⟨_, _, _, rfl⟩
  case inr.inl => exact ⟨by simp, by simp, .inr ⟨hc, by simp⟩⟩
  all_goals exact ⟨rfl, rfl, .inl rfl⟩

/-- No task writes a flag, only `init`'s own tasks touch the binding or `configured`, and marking only sets it. -/
theorem runTask_frame {k : Choice} {t : Task} {ts : List Task} {s u : State} (h : runTask k t ts s = .next u) :
    u.cfg = s.cfg ∧ (u.bind = s.bind ∨ ∃ j, t = .bindPins j) ∧
      (u.configured = s.configured ∨ (t = .markConfigured ∧ u.configured = true)) := by
  rcases runTask_cases h with ⟨j, ht, _, rfl⟩ | ⟨j, c, ht, _, _, rfl⟩ | ⟨w, _, rfl⟩ | ⟨w, r, _, _, _, _, rfl⟩ |
    ⟨r, v, _, _, rfl⟩ | ⟨_, _, rfl⟩ | ⟨ht, rfl⟩
  · exact ⟨by simp, .inr ⟨j, ht⟩, .inl (by simp)⟩
  · exact ⟨by simp, .inr ⟨j, ht⟩, .inl (by simp)⟩
  · exact ⟨by simp, .inl (by simp), .inl (by simp)⟩
  · exact ⟨by simp, .inl (by simp), .inl (by simp)⟩
  · exact ⟨by simp, .inl (by simp), .inl (by simp)⟩
  · exact ⟨by simp, .inl (by simp), .inl (by simp)⟩
  · exact ⟨by simp, .inl (by simp), .inr ⟨ht, by simp⟩⟩

/-- R12: under any open choices a step leaves `configured` as it is, or runs step 3 of `init`. -/
theorem stepWith_configured {k : Choice} {s t : State} (h : stepWith k s = .next t) :
    t.configured = s.configured ∨ ((∃ ts, s.phase = .markConfigured :: ts) ∧ t.configured = true) := by
  rcases stepWith_cases h with
    ⟨_, _, rfl⟩ | ⟨q, rest, hp, _, hc⟩ | ⟨_, _, _, _, _, rfl⟩ | ⟨task, ts, hp, _, hr⟩
  · exact .inl rfl
  · exact .inl (execCall_frame (s := { s with program := rest }) hp hc).1
  · exact .inl rfl
  · obtain ⟨_, _, he | ⟨rfl, he⟩⟩ := runTask_frame hr
    · exact .inl he
    · exact .inr ⟨⟨ts, hp⟩, he⟩

/-- R20: under any open choices a step leaves the binding as it is, or runs step 1 of `init`. -/
theorem stepWith_bind {k : Choice} {s t : State} (h : stepWith k s = .next t) :
    t.bind = s.bind ∨ ∃ j ts, s.phase = .bindPins j :: ts := by
  rcases stepWith_cases h with
    ⟨_, _, rfl⟩ | ⟨q, rest, hp, _, hc⟩ | ⟨_, _, _, _, _, rfl⟩ | ⟨task, ts, hp, _, hr⟩
  · exact .inl rfl
  · exact .inl (execCall_frame (s := { s with program := rest }) hp hc).2.1
  · exact .inl rfl
  · obtain ⟨_, he | ⟨j, rfl⟩, _⟩ := runTask_frame hr
    · exact .inl he
    · exact .inr ⟨j, ts, hp⟩

/-- R19: under any open choices a step leaves the flags as they are, or accepts a call in Configured and Idle. -/
theorem stepWith_cfg {k : Choice} {s t : State} (h : stepWith k s = .next t) :
    t.cfg = s.cfg ∨ (s.configured = true ∧ s.phase = [] ∧
      ∃ q rest, s.program = q :: rest ∧ t.cfg = acceptedCfg s.cfg q.call) := by
  rcases stepWith_cases h with
    ⟨_, _, rfl⟩ | ⟨q, rest, hp, hq, hc⟩ | ⟨_, _, _, _, _, rfl⟩ | ⟨task, ts, hp, _, hr⟩
  · exact .inl rfl
  · obtain ⟨_, _, he | ⟨hcf, he⟩⟩ := execCall_frame (s := { s with program := rest }) hp hc
    · exact .inl he
    · exact .inr ⟨hcf, hp, q, rest, hq, he⟩
  · exact .inl rfl
  · exact .inl (runTask_frame hr).1

/-! ### The flags -/

/-- The flags an accepted call writes are those of R85 to R95. -/
theorem acceptedCfg_eq_cfgAfterCall (cfg : Cfg) (c : Call) : acceptedCfg cfg c = cfgAfterCall cfg c := by
  cases c <;> rfl

/-- R96: `cfg'` is `cfg` but for at most one flag. -/
def DiffersInOneFlag (cfg cfg' : Cfg) : Prop :=
  (∃ b, cfg' = { cfg with displayOn := b }) ∨ (∃ b, cfg' = { cfg with cursorOn := b }) ∨
  (∃ b, cfg' = { cfg with cursorBlink := b }) ∨ (∃ b, cfg' = { cfg with bitWidth := b }) ∨
  (∃ b, cfg' = { cfg with lineCount := b }) ∨ (∃ b, cfg' = { cfg with font := b })

/-- R85 to R95: a call writes one flag, or none. -/
theorem cfgAfterCall_differsInOneFlag (cfg : Cfg) (c : Call) : DiffersInOneFlag cfg (cfgAfterCall cfg c) := by
  cases c with
  | turnDisplayOn | turnDisplayOff => exact .inl ⟨_, rfl⟩
  | turnCursorOn | turnCursorOff => exact .inr (.inl ⟨_, rfl⟩)
  | startCursorBlinking | stopCursorBlinking => exact .inr (.inr (.inl ⟨_, rfl⟩))
  | switchTo8BitMode => exact .inr (.inr (.inr (.inl ⟨_, rfl⟩)))
  | switchToDoubleLines | switchToSingleLines => exact .inr (.inr (.inr (.inr (.inl ⟨_, rfl⟩))))
  | switchTo5x8Font | switchTo5x10Font => exact .inr (.inr (.inr (.inr (.inr ⟨_, rfl⟩))))
  | _ => exact .inl ⟨cfg.displayOn, rfl⟩

/-- R16: no call clears the width flag (R99). -/
theorem acceptedCfg_eightBit {cfg : Cfg} (h : cfg.bitWidth = true) (c : Call) :
    (acceptedCfg cfg c).bitWidth = true := by
  cases c with
  | switchTo8BitMode => rfl
  | _ => exact h

/-! ### The watch of a trace -/

/-- What holds before the first event and is kept by every event the protocol allows holds of every trace that follows
the protocol. -/
theorem watch_induction {P : List Event → Watch → Prop} (h0 : P [] .binding)
    (hev : ∀ tr m ev m', P tr m → watchEvent m ev = some m' → P (tr ++ [ev]) m') {tr : List Event} {m : Watch}
    (h : watch .binding tr = some m) : P tr m := by
  induction tr using List.reverseRecOn generalizing m with
  | nil => exact Option.some.inj h ▸ h0
  | append_singleton tr ev ih =>
    obtain ⟨m₁, h₁, h₂⟩ : ∃ m₁, watch .binding tr = some m₁ ∧ watchEvent m₁ ev = some m := by
      simpa [watch_append, Option.bind_eq_some_iff, watch] using h
    exact hev tr m₁ ev m (ih h₁) h₂

/-- R66, R67, R123: every move of the observer. -/
theorem watchEvent_cases {m m' : Watch} {ev : Event} (h : watchEvent m ev = some m') :
    (m = .binding ∧ m' = .binding ∧ isWrite ev = false) ∨
    (m = .binding ∧ ev = .write .e false ∧ m' = .load wordRoles) ∨
    (∃ missing r v, m = .load missing ∧ ev = .write r v ∧ r ∈ missing ∧
      m' = .load (missing.erase r)) ∨
    (m = .load [] ∧ ev = .write .e false ∧ m' = .low1) ∨
    (m = .low1 ∧ ev = .hold ∧ m' = .held1) ∨
    (m = .held1 ∧ ev = .write .e true ∧ m' = .raised) ∨
    (m = .raised ∧ ev = .hold ∧ m' = .held2) ∨
    (m = .held2 ∧ ev = .write .e false ∧ m' = .low2) ∨
    (m = .low2 ∧ ev = .hold ∧ m' = .load wordRoles) := by
  unfold watchEvent at h
  split at h <;> simp_all [isWrite]
  split_ifs at h <;> simp_all

theorem levelOf_ne_unknown (v : Bool) : levelOf v ≠ .unknown := by cases v <;> decide

/-- R21: a known level stays known. -/
theorem seeEvent_known {p : PerRole Level} {q : Role} (h : p.get q ≠ .unknown) (ev : Event) :
    (seeEvent p ev).get q ≠ .unknown := by
  cases ev with
  | write r v =>
    rw [seeEvent, PerRole.get_set]
    split
    · exact levelOf_ne_unknown v
    · exact h
  | openPin | setOutput | hold => exact h

theorem seeEvent_of_not_write {ev : Event} (h : isWrite ev = false) (p : PerRole Level) : seeEvent p ev = p := by
  cases ev with
  | write r v => simp [isWrite] at h
  | openPin | setOutput | hold => rfl

/-- The observer is in the binding part exactly while Enable has not been written. -/
theorem watch_eq_binding_iff {tr : List Event} {m : Watch} (h : watch .binding tr = some m) :
    m = .binding ↔ (pinsAfter (everyRole .unknown) tr).get .e = .unknown := by
  refine watch_induction (P := fun tr m => m = .binding ↔ (pinsAfter (everyRole .unknown) tr).get .e = .unknown)
    (by simp) (fun tr m ev m' hm hev => ?_) h
  rw [pinsAfter_append, pinsAfter_singleton]
  rcases watchEvent_cases hev with ⟨rfl, rfl, hw⟩ | ⟨rfl, rfl, rfl⟩ | hlater
  · rwa [seeEvent_of_not_write hw]
  · simp [seeEvent, levelOf]
  · have hmoved : m ≠ .binding ∧ m' ≠ .binding := by
      rcases hlater with ⟨_, _, _, rfl, _, _, rfl⟩ | ⟨rfl, _, rfl⟩ | ⟨rfl, _, rfl⟩ | ⟨rfl, _, rfl⟩ | ⟨rfl, _, rfl⟩ |
        ⟨rfl, _, rfl⟩ | ⟨rfl, _, rfl⟩ <;> simp
    have hknown := seeEvent_known (fun he => hmoved.1 (hm.mpr he)) ev
    simp [hmoved.2, hknown]

/-- R66: the observer waits for each role of a pin phase once. -/
theorem watch_load_nodup {tr : List Event} {missing : List Role}
    (h : watch .binding tr = some (.load missing)) : missing.Nodup := by
  refine watch_induction (P := fun _ m => ∀ l, m = .load l → l.Nodup) (by simp) (fun tr m ev m' hm hev l hl => ?_) h
    missing rfl
  subst hl
  rcases watchEvent_cases hev with ⟨_, h, _⟩ | ⟨_, _, h⟩ | ⟨left, r, _, rfl, _, _, h⟩ | ⟨_, _, h⟩ | ⟨_, _, h⟩ |
    ⟨_, _, h⟩ | ⟨_, _, h⟩ | ⟨_, _, h⟩ | ⟨_, _, h⟩ <;> cases h
  · exact wordRoles_nodup
  · exact (hm left rfl).erase r
  · exact wordRoles_nodup

/-! ### The tasks ahead -/

/-- R67: a whole transaction leads from between transactions to between transactions. -/
theorem fits_transactions (ws : List Word) : fits (.load wordRoles) (transactions ws) = true := by
  induction ws with
  | nil => decide
  | cons w ws ih => exact ih

/-- R77: steps 2 to 4 of `init` follow the binding. -/
theorem fits_bringUp (cfg : Cfg) : fits .binding (bringUp cfg) = true := fits_transactions (bringUpWords cfg)

theorem transactions_ofTransaction (ws : List Word) : ∀ t ∈ transactions ws, t.ofTransaction = true := by
  simp only [transactions, transaction, strobe, List.mem_flatMap]
  rintro t ⟨w, _, ht⟩
  fin_cases ht <;> rfl

@[simp] theorem pinsAtEnd_nil (p : PerRole Level) : pinsAtEnd p [] = p := rfl

@[simp] theorem pinsAtEnd_cons (p : PerRole Level) (t : Task) (ts : List Task) :
    pinsAtEnd p (t :: ts) = pinsAtEnd (pinsAfterTask p t) ts := rfl

/-- R75: a word on the bus, its strobe done. -/
theorem settled_levelsOfWord (w : Word) : Settled (levelsOfWord w) := by
  refine ⟨rfl, fun r => ?_⟩
  cases r with
  | e => exact levelOf_ne_unknown false
  | _ => exact levelOf_ne_unknown _

/-- R75: the pins are settled after any transaction, and after none if they were before. -/
theorem settled_transactions {p : PerRole Level} {ws : List Word} (h : ws = [] → Settled p) :
    Settled (pinsAtEnd p (transactions ws)) := by
  induction ws generalizing p with
  | nil => exact h rfl
  | cons w ws ih => exact ih (p := levelsOfWord w) fun _ => settled_levelsOfWord w

/-- A role among those that a pin phase has left gets its bit, every other role keeps its level. -/
theorem get_pinsAfterTask_pins (p : PerRole Level) (w : Word) (left : List Role) (q : Role) :
    (pinsAfterTask p (.pins w left)).get q = if q ∈ left then levelOf (wordBit w q) else p.get q := by
  induction left generalizing p with
  | nil => rfl
  | cons r left ih =>
    refine (ih (p.set r (levelOf (wordBit w r)))).trans ?_
    by_cases hq : q = r
    · simp [hq]
    · simp [hq, PerRole.get_set]

/-- R66: the order of the writes of a pin phase makes no difference to the levels at its end. -/
theorem pinsAfterTask_pins_middle (p : PerRole Level) (w : Word) (r : Role) (before after : List Role) :
    pinsAfterTask (p.set r (levelOf (wordBit w r))) (.pins w (before ++ after)) =
      pinsAfterTask p (.pins w (before ++ r :: after)) := by
  refine PerRole.ext_get fun q => ?_
  simp only [get_pinsAfterTask_pins, PerRole.get_set]
  by_cases hq : q = r
  · simp [hq]
  · simp [hq]

@[simp] theorem pinsAtEnd_afterPin (p : PerRole Level) (w : Word) (left : List Role) (ts : List Task) :
    pinsAtEnd p (afterPin w left ts) = pinsAtEnd p (.pins w left :: ts) := by cases left <;> rfl

theorem mem_afterPin {w : Word} {left : List Role} {ts : List Task} {t : Task} (h : t ∈ afterPin w left ts) :
    t ∈ Task.pins w left :: ts := by
  cases left with
  | nil => exact List.mem_cons_of_mem _ h
  | cons r rest => exact h

/-- A pin phase is at its place where the observer waits for the roles it has left. -/
theorem fits_pins {m : Watch} {w : Word} {left : List Role} {ts : List Task} :
    fits m (.pins w left :: ts) = true ↔ m = .load left ∧ left ≠ [] ∧ fits (.load []) ts = true := by
  rw [fits_cons]
  by_cases hm : m = .load left ∧ left ≠ []
  · simp [watchTask, hm]
  · simp only [watchTask, if_neg hm]
    simp [← and_assoc, hm]

theorem fits_afterPin {w : Word} {left : List Role} {ts : List Task} (h : fits (.load []) ts = true) :
    fits (.load left) (afterPin w left ts) = true := by
  cases left with
  | nil => exact h
  | cons r rest => exact fits_pins.mpr ⟨rfl, by simp, h⟩

/-! ### A running binding -/

/-- What `BlockInv` says of a block whose binding has come to the job `j`, its phase left aside. -/
structure BindingInv (s : State) (j : BindJob) : Prop where
  lastWritten : s.pin = pinsAfter (everyRole .unknown) s.trace
  unconfigured : s.configured = false
  defaults : s.cfg = Cfg.reset
  follows : watch .binding s.trace = some .binding
  sound : JobSound j s.bind
  untouched : s.pin = everyRole .unknown
  suspended : s.answer = none

/-- The invariant of an Unconfigured state, from what it says there. -/
theorem BlockInv.of_unconfigured {s : State} {m : Watch} (hc : s.configured = false)
    (lastWritten : s.pin = pinsAfter (everyRole .unknown) s.trace) (defaults : s.cfg = Cfg.reset)
    (hm : watch .binding s.trace = some m) (hf : fits m s.phase = true) (sound : UnconfiguredSound s)
    (suspended : s.phase ≠ [] → s.answer = none) : BlockInv s where
  lastWritten := lastWritten
  eightBit := by rw [defaults]; rfl
  defaults _ := defaults
  protocol := ⟨m, hm, hf⟩
  unconfigured _ := sound
  bound h := by simp [hc] at h
  sending h := by simp [hc] at h
  settled h := by simp [hc] at h
  suspended := suspended

/-- R77: a binding with calls to make is at its place before the rest of `init`. -/
theorem BindingInv.blockInv {s : State} {j : BindJob} (h : BindingInv s j)
    (hp : s.phase = .bindPins j :: bringUp s.cfg) : BlockInv s :=
  .of_unconfigured h.unconfigured h.lastWritten h.defaults h.follows (by rw [hp]; exact fits_bringUp s.cfg)
    (.inr (.inl ⟨j, hp, h.sound, h.untouched⟩)) fun _ => h.suspended

/-- R77: a job that nothing is left of has bound every role, unless a call has failed. -/
theorem JobSound.allBound {j : BindJob} {b : PerRole (Option Handle)} (h : JobSound j b) (hf : j.failed = false)
    (he : enabledCalls j = []) : AllBound b := by
  simp only [enabledCalls, List.append_eq_nil_iff, List.map_eq_nil_iff] at he
  simpa [JobSound, hf, he, AllBound] using h

/-- R78: a binding that has failed stays failed. -/
theorem answeredJob_failed {j : BindJob} (h : j.failed = true) (c : BindCall) : (answeredJob j c).failed = true := by
  cases c with
  | openPin r | setOutput r => cases hg : j.gpio.get r <;> simp [answeredJob, hg, h]

/-- R77: a call moves its role on, or fails the job. -/
theorem JobSound.answered {j : BindJob} {b : PerRole (Option Handle)} (h : JobSound j b) (c : BindCall) :
    JobSound (answeredJob j c) (bindAfter j c b) := by
  rcases h with hf | hall
  · exact .inl (answeredJob_failed hf c)
  cases c with
  | openPin r =>
    cases hg : j.gpio.get r with
    | openFails => exact .inl (by simp [answeredJob, hg])
    | bound | setOutputFails =>
      refine .inr fun q => ?_
      rcases eq_or_ne q r with rfl | hne
      · simp [answeredJob, hg]
      · rcases hall q with hq | hq | hq
        · simp [answeredJob, hg, List.mem_erase_of_ne hne, hq]
        · simp [answeredJob, hg, hq]
        · simp [bindAfter, hq]
  | setOutput r =>
    cases hg : j.gpio.get r with
    | openFails | setOutputFails => exact .inl (by simp [answeredJob, hg])
    | bound handle =>
      refine .inr fun q => ?_
      rcases eq_or_ne q r with rfl | hne
      · simp [bindAfter, hg]
      · rcases hall q with hq | hq | hq
        · simp [answeredJob, hg, hq]
        · simp [answeredJob, hg, List.mem_erase_of_ne hne, hq]
        · simp [bindAfter, hg, PerRole.get_set_ne _ _ hne, hq]

/-- R77, R78, U11: wherever binding goes on from a sound job, the invariant holds. -/
theorem BindingInv.blockInv_bindGoesOn {s : State} {j : BindJob} (h : BindingInv s j) (stop : Bool) :
    BlockInv (bindGoesOn stop j (bringUp s.cfg) s) := by
  obtain ⟨lastWritten, unconfigured, defaults, follows, sound, untouched, suspended⟩ := h
  unfold bindGoesOn
  split_ifs with hfail hdone
  · exact .of_unconfigured unconfigured lastWritten defaults follows (fits_nil.mpr (.inl rfl))
      (.inl ⟨rfl, rfl, untouched⟩) (absurd rfl)
  · have hnofail : j.failed = false := by simpa [hdone] using hfail
    exact .of_unconfigured unconfigured lastWritten defaults follows (fits_bringUp s.cfg)
      (.inr (.inr (.inl ⟨rfl, sound.allBound hnofail (by simpa using hdone), untouched⟩))) fun _ => suspended
  · exact BindingInv.blockInv ⟨lastWritten, unconfigured, defaults, follows, sound, untouched, suspended⟩ rfl

/-- R77: a binding call keeps what holds of the binding. -/
theorem BindingInv.answered {s : State} {j : BindJob} (h : BindingInv s j) (c : BindCall) :
    BindingInv (tookChoice { record (bindEvent j c) s with bind := bindAfter j c s.bind }) (answeredJob j c) where
  lastWritten := by simp [pinsAfter_append, ← h.lastWritten]
  unconfigured := h.unconfigured
  defaults := h.defaults
  follows := watch_snoc h.follows (by cases c <;> rfl)
  sound := h.sound.answered c
  untouched := h.untouched
  suspended := h.suspended

/-! ### Running transactions -/

/-- What `BlockInv` says of a Configured block that has the tasks `ts` ahead, with the observer at `m`. -/
structure SendingInv (s : State) (m : Watch) (ts : List Task) : Prop where
  lastWritten : s.pin = pinsAfter (everyRole .unknown) s.trace
  configured : s.configured = true
  eightBit : s.cfg.bitWidth = true
  follows : watch .binding s.trace = some m
  ahead : fits m ts = true
  bound : AllBound s.bind
  sending : ∀ t ∈ ts, t.ofTransaction = true
  settled : Settled (pinsAtEnd s.pin ts)

/-- The invariant of a Configured state, from what it says there. -/
theorem SendingInv.blockInv {s : State} {m : Watch} (h : SendingInv s m s.phase)
    (suspended : s.phase ≠ [] → s.answer = none) : BlockInv s where
  lastWritten := h.lastWritten
  eightBit := h.eightBit
  defaults hc := by simp [h.configured] at hc
  protocol := ⟨m, h.follows, h.ahead⟩
  unconfigured hc := by simp [h.configured] at hc
  bound _ := h.bound
  sending _ := h.sending
  settled _ := h.settled
  suspended := suspended

theorem BlockInv.sendingInv {s : State} (h : BlockInv s) (hc : s.configured = true) :
    ∃ m, SendingInv s m s.phase := by
  obtain ⟨m, hm, hf⟩ := h.protocol
  exact ⟨m, h.lastWritten, hc, h.eightBit, hm, hf, h.bound hc, h.sending hc, h.settled hc⟩

/-- R71: the call goes on with the tasks ahead, or returns. -/
theorem SendingInv.blockInv_continueWith {s : State} {m : Watch} {ts : List Task} (h : SendingInv s m ts)
    (suspended : s.answer = none) : BlockInv (continueWith ts s) := by
  have hs : SendingInv (continueWith ts s) m (continueWith ts s).phase := by
    obtain ⟨lastWritten, configured, eightBit, follows, ahead, bound, sending, settled⟩ := h
    constructor <;> simpa
  refine hs.blockInv fun hrun => ?_
  cases ts with
  | nil => simp at hrun
  | cons t ts => exact suspended

/-- One event that the protocol allows, the tasks `ts'` after it leading where `ts` led. -/
theorem SendingInv.event {s t : State} {m m' : Watch} {ev : Event} {ts ts' : List Task} (h : SendingInv s m ts)
    (he : Emits s [ev] t) (hm : watchEvent m ev = some m') (hf : fits m' ts' = true)
    (hsub : ∀ x ∈ ts', x.ofTransaction = true) (hend : pinsAtEnd t.pin ts' = pinsAtEnd s.pin ts)
    (hc : t.configured = s.configured) (hcfg : t.cfg = s.cfg) (hb : t.bind = s.bind) : SendingInv t m' ts' where
  lastWritten := by rw [he.2, he.1, pinsAfter_append, ← h.lastWritten]
  configured := hc.trans h.configured
  eightBit := hcfg ▸ h.eightBit
  follows := he.1 ▸ watch_snoc h.follows hm
  ahead := hf
  bound := hb ▸ h.bound
  sending := hsub
  settled := hend ▸ h.settled

/-- R67: a write at its place in a fixed order. -/
theorem SendingInv.write {s : State} {m : Watch} {r : Role} {v : Bool} {ts : List Task}
    (h : SendingInv s m (.write r v :: ts)) : ∃ m', SendingInv (setPin r v (record (.write r v) s)) m' ts := by
  obtain ⟨m', hm, hf⟩ := fits_cons.mp h.ahead
  exact ⟨m', h.event ⟨rfl, rfl⟩ hm hf (List.forall_mem_cons.mp h.sending).2 rfl rfl rfl rfl⟩

/-- R67: a hold. -/
theorem SendingInv.hold {s : State} {m : Watch} {ts : List Task} (h : SendingInv s m (.hold :: ts)) :
    ∃ m', SendingInv (record .hold s) m' ts := by
  obtain ⟨m', hm, hf⟩ := fits_cons.mp h.ahead
  exact ⟨m', h.event ⟨rfl, rfl⟩ hm hf (List.forall_mem_cons.mp h.sending).2 rfl rfl rfl rfl⟩

/-- R66: one write of a pin phase, whichever role it takes. -/
theorem SendingInv.pin {s : State} {m : Watch} {w : Word} {r : Role} {before after : List Role} {ts : List Task}
    (h : SendingInv s m (.pins w (before ++ r :: after) :: ts)) :
    SendingInv (tookChoice (setPin r (wordBit w r) (record (.write r (wordBit w r)) s))) (.load (before ++ after))
      (afterPin w (before ++ after) ts) := by
  obtain ⟨rfl, _, hf⟩ := fits_pins.mp h.ahead
  have hr : r ∉ before := fun hr =>
    (List.nodup_append.mp (watch_load_nodup h.follows)).2.2 r hr r (by simp) rfl
  have herase : (before ++ r :: after).erase r = before ++ after := by simp [List.erase_append_right _ hr]
  have hmove : watchEvent (.load (before ++ r :: after)) (.write r (wordBit w r)) =
      some (.load (before ++ after)) := by simp [watchEvent, herase]
  have hsend : ∀ x ∈ afterPin w (before ++ after) ts, x.ofTransaction = true := by
    intro x hx
    rcases List.mem_cons.mp (mem_afterPin hx) with rfl | hx
    · rfl
    · exact h.sending x (List.mem_cons_of_mem _ hx)
  exact h.event ⟨rfl, rfl⟩ hmove (fits_afterPin hf) hsend
    (by simp [pinsAfterTask_pins_middle]) rfl rfl rfl

/-! ### What keeps the invariant -/

/-- The invariant says nothing of the requests to come, nor of the word an encoder function returned (log 29). -/
theorem BlockInv.set_program_encoded {s : State} (h : BlockInv s) (rest : List Request) (word : Option Word) :
    BlockInv { s with program := rest, encoded := word } := by
  obtain ⟨h₁, h₂, h₃, h₄, h₅, h₆, h₇, h₈, h₉⟩ := h
  exact ⟨h₁, h₂, h₃, h₄, h₅, h₆, h₇, h₈, h₉⟩

/-- R71: an Idle block may have answered anything. -/
theorem BlockInv.set_answer {s : State} (h : BlockInv s) (hp : s.phase = []) (a : Answer) :
    BlockInv { s with answer := some a } := by
  obtain ⟨h₁, h₂, h₃, h₄, h₅, h₆, h₇, h₈, _⟩ := h
  exact ⟨h₁, h₂, h₃, h₄, h₅, h₆, h₇, h₈, fun hrun => absurd hp hrun⟩

/-- R20, R27: an Unconfigured Idle block has nothing bound and nothing written. -/
theorem BlockInv.untouched {s : State} (h : BlockInv s) (hc : s.configured = false) (hp : s.phase = []) :
    s.bind = everyRole none ∧ s.pin = everyRole .unknown := by
  rcases h.unconfigured hc with ⟨_, hb, hpin⟩ | ⟨j, hrun, _⟩ | ⟨hrun, _⟩ | ⟨hrun, _⟩
  · exact ⟨hb, hpin⟩
  all_goals exact absurd (hp.symm.trans hrun) (by simp [bringUp])

/-- The observer is in the binding part while no pin is known. -/
theorem BlockInv.watch_of_untouched {s : State} (h : BlockInv s) (hpin : s.pin = everyRole .unknown) :
    watch .binding s.trace = some .binding := by
  obtain ⟨m, hm, _⟩ := h.protocol
  have : m = .binding := (watch_eq_binding_iff hm).mpr (by rw [← h.lastWritten, hpin]; rfl)
  exact this ▸ hm

/-- R77: an accepted `init` begins a sound binding. -/
theorem BlockInv.accepts_init {s : State} (h : BlockInv s) (hc : s.configured = false) (hp : s.phase = [])
    (ids : PerRole PinId) (gpio : PerRole BindAnswer) :
    BlockInv { s with phase := .bindPins (newJob ids gpio) :: bringUp s.cfg, answer := none } := by
  obtain ⟨_, hpin⟩ := h.untouched hc hp
  exact BindingInv.blockInv (j := newJob ids gpio) ⟨h.lastWritten, hc, h.defaults hc, h.watch_of_untouched hpin,
    .inr fun r => .inl (mem_allRoles r), hpin, rfl⟩ rfl

/-- R65, R76: an accepted operation in Configured writes its flag and has its words ahead. -/
theorem BlockInv.accepts_operation {s : State} (h : BlockInv s) (hc : s.configured = true) (hp : s.phase = [])
    (c : Call) (ws : List Word) : BlockInv (startWords ws { s with cfg := acceptedCfg s.cfg c }) := by
  obtain ⟨m, hs⟩ := h.sendingInv hc
  have hsettled : Settled s.pin := by simpa [hp] using hs.settled
  have hm : m = .load wordRoles := by
    rcases fits_nil.mp (hp ▸ hs.ahead) with rfl | hm
    · have hlow : s.pin.get .e = .low := hsettled.1
      have hunknown := (watch_eq_binding_iff hs.follows).mp rfl
      rw [← h.lastWritten, hlow] at hunknown
      cases hunknown
    · exact hm
  subst hm
  refine SendingInv.blockInv (m := .load wordRoles) ?_ fun hrun => ?_
  · exact {
      lastWritten := by simpa using h.lastWritten
      configured := by simpa using hc
      eightBit := by simpa using acceptedCfg_eightBit h.eightBit c
      follows := by simpa using hs.follows
      ahead := by simpa using fits_transactions ws
      bound := by simpa using hs.bound
      sending := by simpa using transactions_ofTransaction ws
      settled := by simpa using settled_transactions fun _ => hsettled }
  · cases ws with
    | nil => simp at hrun
    | cons w ws => rfl

/-- Accepting a call keeps the invariant. -/
theorem execCall_keeps_blockInv {c : Call} {s t : State} (hinv : BlockInv s) (hp : s.phase = [])
    (h : execCall c s = .next t) : BlockInv t := by
  rcases execCall_cases hp h with
    ⟨ids, gpio, _, hc, rfl⟩ | ⟨hc, ws, rfl⟩ | ⟨a, rfl, _⟩ | ⟨_, a, rfl⟩ | ⟨_, w, _, rfl⟩
  · exact hinv.accepts_init hc hp ids gpio
  · exact hinv.accepts_operation hc hp c ws
  · exact hinv.set_answer hp a
  · exact hinv.set_answer hp a
  · exact hinv.set_program_encoded s.program (some w)

/-- R22, R77: the tasks a block may have ahead: the binding, the baseline, the mark, or transactions in Configured. -/
theorem BlockInv.running_cases {s : State} {t : Task} {ts : List Task} (h : BlockInv s) (hp : s.phase = t :: ts) :
    (∃ j, t = .bindPins j ∧ ts = bringUp s.cfg ∧ BindingInv s j) ∨
    (s.configured = false ∧ t = .write .e false ∧ ts = .markConfigured :: transactions (bringUpWords s.cfg) ∧
      AllBound s.bind ∧ s.pin = everyRole .unknown) ∨
    (s.configured = false ∧ t = .markConfigured ∧ ts = transactions (bringUpWords s.cfg) ∧
      AllBound s.bind ∧ s.pin = (everyRole .unknown).set .e .low) ∨
    (t.ofTransaction = true ∧ ∃ m, SendingInv s m (t :: ts)) := by
  cases hc : s.configured with
  | true =>
    obtain ⟨m, hs⟩ := h.sendingInv hc
    rw [hp] at hs
    exact .inr (.inr (.inr ⟨hs.sending t (by simp), m, hs⟩))
  | false =>
    rcases h.unconfigured hc with ⟨hidle, _⟩ | ⟨j, hrun, hsound, hpin⟩ | ⟨hrun, hb, hpin⟩ | ⟨hrun, hb, hpin⟩
    · simp [hp] at hidle
    · obtain ⟨rfl, rfl⟩ := List.cons.inj (hp.symm.trans hrun)
      exact .inl ⟨j, rfl, rfl, h.lastWritten, hc, h.defaults hc, h.watch_of_untouched hpin, hsound, hpin,
        h.suspended (by simp [hp])⟩
    · obtain ⟨rfl, rfl⟩ := List.cons.inj (hp.symm.trans hrun)
      exact .inr (.inl ⟨rfl, rfl, rfl, hb, hpin⟩)
    · obtain ⟨rfl, rfl⟩ := List.cons.inj (hp.symm.trans hrun)
      exact .inr (.inr (.inl ⟨rfl, rfl, rfl, hb, hpin⟩))

/-- R77 step 1: a binding call, or the end of the binding, keeps the invariant. -/
theorem BindingInv.blockInv_of_runTask {k : Choice} {j : BindJob} {s u : State} (hinv : BindingInv s j)
    (h : runTask k (.bindPins j) (bringUp s.cfg) s = .next u) : BlockInv u := by
  rcases runTask_cases h with ⟨j', hj, _, rfl⟩ | ⟨j', c, hj, _, _, rfl⟩ | ⟨w, hw, _⟩ | ⟨w, r, _, _, hw, _⟩ |
    ⟨r, v, hw, _⟩ | ⟨hw, _⟩ | ⟨hw, _⟩
  · cases hj
    exact hinv.blockInv_bindGoesOn k.stop
  · cases hj
    exact (hinv.answered c).blockInv_bindGoesOn k.stop
  all_goals cases hw

/-- R77 step 2: the baseline write keeps the invariant. -/
theorem BlockInv.of_baseline {k : Choice} {s u : State} (hinv : BlockInv s) (hc : s.configured = false)
    (hsusp : s.answer = none) (hb : AllBound s.bind) (hpin : s.pin = everyRole .unknown)
    (h : runTask k (.write .e false) (.markConfigured :: transactions (bringUpWords s.cfg)) s = .next u) :
    BlockInv u := by
  simp only [runTask, callOut_eq_next] at h
  obtain ⟨_, rfl⟩ := h
  refine .of_unconfigured (m := .load wordRoles) hc ?_ (hinv.defaults hc)
    (watch_snoc (hinv.watch_of_untouched hpin) rfl) (fits_transactions (bringUpWords s.cfg))
    (.inr (.inr (.inr ⟨rfl, hb, ?_⟩))) fun _ => hsusp
  · simp [pinsAfter_append, ← hinv.lastWritten, seeEvent]
  · simp [hpin, levelOf]

/-- R77 step 3: marking the block configured keeps the invariant. -/
theorem BlockInv.of_mark {k : Choice} {s u : State} (hinv : BlockInv s)
    (hp : s.phase = .markConfigured :: transactions (bringUpWords s.cfg)) (hb : AllBound s.bind)
    (h : runTask k .markConfigured (transactions (bringUpWords s.cfg)) s = .next u) : BlockInv u := by
  cases h
  obtain ⟨m, hm, hf⟩ := hinv.protocol
  obtain ⟨m', hmark, hf⟩ := fits_cons.mp (hp ▸ hf)
  obtain ⟨rfl, rfl⟩ : m = .load wordRoles ∧ m = m' := by simpa [watchTask] using hmark
  exact SendingInv.blockInv_continueWith (m := .load wordRoles)
    ⟨hinv.lastWritten, rfl, hinv.eightBit, hm, hf, hb, transactions_ofTransaction _,
      settled_transactions (by simp [bringUpWords])⟩ (hinv.suspended (by simp [hp]))

/-- R65 to R67: a task of a transaction keeps the invariant. -/
theorem SendingInv.blockInv_of_runTask {k : Choice} {t : Task} {ts : List Task} {m : Watch} {s u : State}
    (hs : SendingInv s m (t :: ts)) (ht : t.ofTransaction = true) (hsusp : s.answer = none)
    (h : runTask k t ts s = .next u) : BlockInv u := by
  rcases runTask_cases h with ⟨j, rfl, _⟩ | ⟨j, c, rfl, _⟩ | ⟨w, rfl, rfl⟩ | ⟨w, r, before, after, rfl, _, rfl⟩ |
    ⟨r, v, rfl, _, rfl⟩ | ⟨rfl, _, rfl⟩ | ⟨rfl, _⟩
  · cases ht
  · cases ht
  · exact absurd rfl (fits_pins.mp hs.ahead).2.1
  · exact hs.pin.blockInv_continueWith hsusp
  · obtain ⟨m', hs'⟩ := hs.write
    exact hs'.blockInv_continueWith hsusp
  · obtain ⟨m', hs'⟩ := hs.hold
    exact hs'.blockInv_continueWith hsusp
  · cases ht

/-- R22: running the first task keeps the invariant. -/
theorem runTask_keeps_blockInv {k : Choice} {t : Task} {ts : List Task} {s u : State} (hinv : BlockInv s)
    (hp : s.phase = t :: ts) (h : runTask k t ts s = .next u) : BlockInv u := by
  have hsusp : s.answer = none := hinv.suspended (by simp [hp])
  rcases hinv.running_cases hp with ⟨j, rfl, rfl, hj⟩ | ⟨hc, rfl, rfl, hb, hpin⟩ | ⟨_, rfl, rfl, hb, _⟩ |
    ⟨ht, m, hs⟩
  · exact hj.blockInv_of_runTask h
  · exact hinv.of_baseline hc hsusp hb hpin h
  · exact hinv.of_mark hp hb h
  · exact hs.blockInv_of_runTask ht hsusp h

/-- R16, R19 to R21, R66, R67, R71, R75, R123: under any open choices a step keeps the invariant. -/
theorem stepWith_keeps_blockInv {k : Choice} {s t : State} (hinv : BlockInv s) (h : stepWith k s = .next t) :
    BlockInv t := by
  rcases stepWith_cases h with
    ⟨_, _, rfl⟩ | ⟨q, rest, hp, _, hc⟩ | ⟨q, rest, w, _, _, rfl⟩ | ⟨task, ts, hp, _, hr⟩
  · exact hinv
  · exact execCall_keeps_blockInv (hinv.set_program_encoded rest s.encoded) hp hc
  · exact hinv.set_program_encoded rest (some w)
  · exact runTask_keeps_blockInv hinv hp hr

/-! ### The obligations -/

/-- Settles O3: the step is `stepWith` under the choices of the block, and `stepWith_keeps_blockInv` holds under any. -/
theorem everyStepKeepsTheInvariant : Obligations.EveryStepKeepsTheInvariant :=
  fun _ _ hinv h => stepWith_keeps_blockInv hinv h

/-- Settles O43: only the mark of step 3 of `init` touches `configured`, and it sets it. -/
theorem configuredIsSetOnlyByInitAndNeverCleared : Obligations.ConfiguredIsSetOnlyByInitAndNeverCleared := by
  intro s t h
  rcases stepWith_configured h with he | ⟨hmark, hset⟩
  · exact ⟨fun hc => he.trans hc, fun hc hset => by simp [he, hc] at hset⟩
  · exact ⟨fun _ => hset, fun _ _ => hmark⟩

/-- Settles O44: a flag is written only where a call is accepted in Configured, and each call writes at most one. -/
theorem flagsChangeOnlyByToggles : Obligations.FlagsChangeOnlyByToggles := by
  intro s t h hne
  obtain ⟨hc, hp, q, rest, hq, he⟩ := (stepWith_cfg h).resolve_left hne
  rw [acceptedCfg_eq_cfgAfterCall] at he
  exact ⟨hc, hp, q, rest, hq, he, he ▸ cfgAfterCall_differsInOneFlag s.cfg q.call⟩

/-- Settles O45: the binding changes only in step 1 of `init`, which no Configured block has ahead. -/
theorem bindingIsImmutableOnceConfigured : Obligations.BindingIsImmutableOnceConfigured := by
  intro s t hinv hc h
  rcases stepWith_bind h with he | ⟨j, ts, hp⟩
  · exact he
  · have hbinding := hinv.sending hc (.bindPins j) (by simp [hp])
    cases hbinding

/-- Settles O2: a block that has just been reset is Unconfigured and Idle, with nothing bound, written or recorded. -/
theorem invariantHoldsAfterReset : Obligations.InvariantHoldsAfterReset := fun _ _ =>
  .of_unconfigured (m := .binding) rfl rfl rfl rfl (fits_nil.mpr (.inl rfl)) (.inl ⟨rfl, rfl, rfl⟩) (absurd rfl)

/-- Settles O50: the invariant holds at the end of every run from reset, and an Idle block has no task ahead. -/
theorem configuredIdleBlockIsFullyKnown : Obligations.ConfiguredIdleBlockIsFullyKnown := by
  intro program hang n s hrun hc hp r
  have hinv : BlockInv s :=
    runSteps_induction everyStepKeepsTheInvariant (invariantHoldsAfterReset program hang) hrun
  have hsettled : Settled s.pin := by simpa [hp] using hinv.settled hc
  exact ⟨hsettled.2 r, hinv.bound hc r⟩

/-- Settles O1: the table of R27, role by role where it speaks of all eleven. -/
theorem resetLeavesTheDefaults : Obligations.ResetLeavesTheDefaults :=
  ⟨rfl, rfl, rfl, rfl, rfl, rfl, rfl, everyRole_get none, everyRole_get Level.unknown, rfl⟩

/-- Settles O14: the two branches of a step that present nothing. -/
theorem stepOtherwiseRunsThePhase : Obligations.StepOtherwiseRunsThePhase :=
  ⟨fun _ hp hq => stepWith_idle hp hq _, fun _ _ _ hp hw => step_running hp hw⟩

end Sys2Proof.Machine
end

section
/-! PROOFS (00_scope.md R7; 30_encoding.md R45, R50). The words of a call as numbers: the round trip of the opcode map,
and `acceptedWords_eq`, which says once that the words an accepted call sends are those of `callWordNumbers`. -/
namespace Sys2Proof.Machine

/-! ### The round trip of the opcode map -/

theorem b2i_getLsbD_shiftLeft (w : Word) (i : Nat) : b2i (w.getLsbD i) <<< i = w &&& BitVec.twoPow 10 i := by
  rw [BitVec.and_twoPow]
  cases w.getLsbD i <;> simp [b2i, BitVec.twoPow]

theorem b2i_getLsbD_zero (w : Word) : b2i (w.getLsbD 0) = w &&& BitVec.twoPow 10 0 := by
  simpa using b2i_getLsbD_shiftLeft w 0

/-- The low `k` bits of a word, as a field that the encoder widens again. -/
theorem setWidth_setWidth_eq_and (w : Word) (k : Nat) :
    (w.setWidth k).setWidth 10 = w &&& BitVec.ofNat 10 (2 ^ k - 1) := by
  refine BitVec.eq_of_getLsbD_eq fun i hi => ?_
  simp only [BitVec.getLsbD_setWidth, BitVec.getLsbD_and, BitVec.getLsbD_ofNat, Nat.testBit_two_pow_sub_one, hi,
    decide_true, Bool.true_and, Bool.and_comm]

/-- R44, R45: the instruction that a row builds from a word is encoded as the row's fixed bits and, outside its mask,
the bits of the word. -/
theorem encode_build {r : OpcodeRow} (hr : r ∈ opcodeMap) (w : Word) :
    encode (r.build w) = r.pattern ||| (w &&& ~~~r.mask) := by
  have hfixed (pattern : Word) : pattern = pattern ||| (w &&& ~~~0x3FF#10) := by simp
  have hfield (pattern : Word) (k : Nat) :
      pattern ||| (w.setWidth k).setWidth 10 = pattern ||| (w &&& BitVec.ofNat 10 (2 ^ k - 1)) := by
    rw [setWidth_setWidth_eq_and]
  simp only [opcodeMap, List.mem_cons, List.not_mem_nil, or_false] at hr
  rcases hr with rfl | rfl | rfl | rfl | rfl | rfl | rfl | rfl | rfl | rfl | rfl
  · exact hfixed 0x001#10
  · exact hfixed 0x003#10
  -- The four rows with flags, R56 to R59.
  iterate 4
    · simp only [encode, encodeEntryModeSet, encodeDisplayOnOffControl, encodeCursorDisplayShift, encodeFunctionSet,
        b2i_getLsbD_shiftLeft, b2i_getLsbD_zero, BitVec.or_assoc, ← BitVec.and_or_distrib_left]
      rfl
  · exact hfield 0x040#10 6
  · exact hfield 0x080#10 7
  · exact hfixed 0x100#10
  · exact hfield 0x200#10 8
  · exact hfixed 0x300#10

/-- R45, R52: a word that is an instruction is the word of that instruction. -/
theorem encode_of_decodeWord {w : Word} {i : Instr} (h : decodeWord w = some i) : encode i = w := by
  obtain ⟨r, hfind, rfl⟩ := Option.map_eq_some_iff.mp h
  have haccepts : w &&& r.mask = r.pattern := by simpa [OpcodeRow.accepts] using List.find?_some hfind
  rw [encode_build (List.mem_of_find?_eq_some hfind), ← haccepts, ← BitVec.and_or_distrib_left,
    BitVec.or_not_self, BitVec.and_allOnes]

/-! ### Words and their numbers -/

/-- R7: reading one more bit of a sequence. -/
theorem ofNat_two_mul_add_toNat (n : Nat) (b : Bool) :
    BitVec.ofNat 10 (2 * n + b.toNat) = BitVec.ofNat 10 n <<< 1 ||| b2i b := by
  have hor : 2 * n + b.toNat = n <<< 1 ||| b.toNat := by
    rw [Nat.shiftLeft_eq, Nat.mul_comm n]
    exact Nat.two_pow_add_eq_or_of_lt (i := 1) b.toNat_lt n
  rw [hor, BitVec.ofNat_or]
  congr 1
  · exact BitVec.eq_of_toNat_eq (by simp [Nat.shiftLeft_eq])
  · cases b <;> rfl

/-- R7: the numeric view of a sequence is its numeral. -/
theorem wordOfSeq?_toList (bits : List Bool) :
    (wordOfSeq? bits).toList = (if bits.length = 10 then [numeral bits] else []).map (BitVec.ofNat 10) := by
  cases hw : wordOfSeq? bits with
  | none => simp [(wordOfSeq?_eq_none_iff bits).mp hw]
  | some w =>
    obtain rfl := seqOfWord_of_wordOfSeq? hw
    have hnumeral : BitVec.ofNat 10 (numeral (seqOfWord w)) = w := by
      have hround : wordOfSeq? (seqOfWord w) = some w := wordOfSeq?_seqOfWord w
      simp only [seqOfWord, wordOfSeq?, Option.some.injEq] at hround
      simp only [seqOfWord, numeral, List.foldl, ofNat_two_mul_add_toNat, BitVec.shiftLeft_or_distrib,
        ← BitVec.shiftLeft_add]
      simpa using hround
    simp [hnumeral]

/-- A fixed bit above a field is a power of two added to it. -/
theorem twoPow_or_field {k n : Nat} (h : n < 2 ^ k) :
    BitVec.ofNat 10 (2 ^ k) ||| BitVec.ofNat 10 n = BitVec.ofNat 10 (2 ^ k + n) := by
  rw [← BitVec.ofNat_or]
  simpa using (congrArg (BitVec.ofNat 10) (Nat.two_pow_add_eq_or_of_lt h 1)).symm

/-- R63: the number of a data word. -/
theorem encodeWriteData_eq (b : Byte) : encodeWriteData b = BitVec.ofNat 10 (0x200 + b.toNat) := by
  rw [encodeWriteData, ← BitVec.ofNat_toNat]
  have hlt : b.toNat < 2 ^ 9 := by omega
  exact twoPow_or_field hlt

/-- R83: the numbers of the words of a text. -/
theorem textWords_eq (text : List Byte) :
    textWords text = (text.map fun b => 0x200 + b.toNat).map (BitVec.ofNat 10) := by
  simp [textWords, encodeWriteData_eq]

/-- R82: the number of the word that sets the cursor. -/
theorem cursorWord_eq (cfg : Cfg) (row column : Nat) :
    cursorWord cfg row column = BitVec.ofNat 10 (cursorWordNumber cfg row column) := by
  have hle := cursorAddress_le cfg row column
  have hlt : cursorAddress cfg row column < 2 ^ 7 := by omega
  have hnumber : cursorWordNumber cfg row column = 2 ^ 7 + cursorAddress cfg row column := by
    simp only [cursorWordNumber, cursorAddress, clampRow, clampColumn, lineStride, rowMax, colMax]
    cases cfg.lineCount <;> simp [Nat.add_assoc]
  rw [hnumber, ← twoPow_or_field hlt, cursorWord, encodeSetDDRAMAddress, ← BitVec.ofNat_toNat, BitVec.toNat_ofNat,
    Nat.mod_eq_of_lt hlt]
  rfl

/-- R80: the number of the on/off-control word of the flags. -/
theorem displayConfigWord_eq (cfg : Cfg) : displayConfigWord cfg = BitVec.ofNat 10 (displayWordNumber cfg) := by
  unfold displayConfigWord displayWordNumber
  cases cfg.displayOn <;> cases cfg.cursorOn <;> cases cfg.cursorBlink <;> rfl

/-- R79: the number of the function-set word of the flags. -/
theorem textConfigWord_eq (cfg : Cfg) : textConfigWord cfg = BitVec.ofNat 10 (textWordNumber cfg) := by
  unfold textConfigWord textWordNumber
  cases cfg.bitWidth <;> cases cfg.lineCount <;> cases cfg.font <;> rfl

/-- R50: the words an accepted call sends are those of its numbers. -/
theorem acceptedWords_eq (cfg : Cfg) (c : Call) :
    acceptedWords cfg c = (callWordNumbers cfg c).map (BitVec.ofNat 10) := by
  cases c with
  | init _ _ | encode _ | clearDisplay => rfl
  | send bits => exact wordOfSeq?_toList bits
  | setCursorPosition row column => simp [acceptedWords, callWordNumbers, cursorWord_eq]
  | write text => exact textWords_eq text
  | writeLine text =>
    simp only [acceptedWords, callWordNumbers, textWords_eq, List.map_append]
    rfl
  | turnDisplayOn | turnDisplayOff | turnCursorOn | turnCursorOff | startCursorBlinking | stopCursorBlinking =>
    simp [acceptedWords, callWordNumbers, displayConfigWord_eq, cfgAfterCall]
  | switchTo8BitMode | switchToDoubleLines | switchToSingleLines | switchTo5x8Font | switchTo5x10Font =>
    simp [acceptedWords, callWordNumbers, textConfigWord_eq, cfgAfterCall]

end Sys2Proof.Machine
end

section
/-! PROOFS (20_memory.md R36; 30_encoding.md R50; 41_bus_transaction.md R66, R67, R69). Runs of whole calls: what an
observer reads from transactions one after another, what one call of the host transmits in Configured, and a session
of calls. -/
namespace Sys2Proof.Machine

/-! ### What an observer reads -/

/-- `evs` are bus transactions of the words `ws`, one after another: each makes the ten writes of its pin phase in
some order (R66) and then the strobe (R67). -/
inductive BusEvents : List Word → List Event → Prop where
  | nil : BusEvents [] []
  | cons {w : Word} {ws : List Word} {writes evs : List Event} (hwrites : writes.Perm (pinPhaseEvents w))
      (h : BusEvents ws evs) : BusEvents (w :: ws) (writes ++ strobeEvents ++ evs)

theorem BusEvents.append {ws vs : List Word} {evs fvs : List Event} (h : BusEvents ws evs) (g : BusEvents vs fvs) :
    BusEvents (ws ++ vs) (evs ++ fvs) := by
  induction h with
  | nil => exact g
  | cons hwrites _ ih =>
    rw [List.append_assoc]
    exact .cons hwrites ih

/-- R41, R66: the writes of a pin phase are those of the ten roles that carry a word bit. -/
theorem mem_pinPhaseEvents {w : Word} {ev : Event} : ev ∈ pinPhaseEvents w ↔ ∃ r, r ≠ .e ∧ writeOf w r = ev := by
  simp [← pinPhaseEvents_eq, mem_wordRoles]

/-- R21: after writes of bits of `w`, a pin that was written has its bit and any other its level from before. -/
theorem get_pinsAfter_writes (w : Word) {evs : List Event} (hevs : ∀ ev ∈ evs, ∃ r, writeOf w r = ev)
    (p : PerRole Level) (q : Role) :
    (pinsAfter p evs).get q = if writeOf w q ∈ evs then levelOf (wordBit w q) else p.get q := by
  induction evs generalizing p with
  | nil => simp
  | cons ev evs ih =>
    obtain ⟨⟨r, rfl⟩, hrest⟩ := List.forall_mem_cons.mp hevs
    refine (ih hrest (seeEvent p (writeOf w r))).trans ?_
    by_cases hq : q = r
    · simp [hq, seeEvent, writeOf]
    · simp [hq, seeEvent, writeOf, PerRole.get_set]

/-- R66: after the writes of a pin phase, in any order, each of the ten pins has its bit and Enable is as before. -/
theorem get_pinsAfter_pinPhase {w : Word} {writes : List Event} (hwrites : writes.Perm (pinPhaseEvents w))
    (p : PerRole Level) (q : Role) :
    (pinsAfter p writes).get q = if q = .e then p.get q else levelOf (wordBit w q) := by
  have hmem : ∀ ev, ev ∈ writes ↔ ∃ r, r ≠ .e ∧ writeOf w r = ev := fun _ =>
    hwrites.mem_iff.trans mem_pinPhaseEvents
  rw [get_pinsAfter_writes w fun ev hev => ((hmem ev).mp hev).imp fun _ h => h.2]
  by_cases hq : q = .e
  · simp [hq, hmem, writeOf]
  · simp [hq, (hmem _).mpr ⟨q, hq, rfl⟩]

/-- R67: a strobe leaves Enable low and the other pins alone. -/
theorem pinsAfter_strobeEvents (p : PerRole Level) : pinsAfter p strobeEvents = p.set .e .low := rfl

/-- R41, R66, R67: the levels on the pins after one transaction. -/
theorem pinsAfter_transaction {w : Word} {writes : List Event} (hwrites : writes.Perm (pinPhaseEvents w))
    (p : PerRole Level) : pinsAfter p (writes ++ strobeEvents) = levelsOfWord w := by
  rw [pinsAfter_append, pinsAfter_strobeEvents]
  refine PerRole.ext_get fun q => ?_
  rw [PerRole.get_set, get_pinsAfter_pinPhase hwrites]
  cases q <;> rfl

/-- R69: the bus word is read from the ten roles that carry a word bit. -/
theorem busWord_of_levels {w : Word} {p : PerRole Level} (h : ∀ r, r ≠ .e → p.get r = levelOf (wordBit w r)) :
    busWord p = some w := by
  have hbits : wordRoles.mapM (fun r => bitOfLevel (p.get r)) = some (seqOfWord w) := by
    simp [wordRoles, h, bitOfLevel_levelOf, seqOfWord, wordBit]
  rw [busWord, hbits]
  exact wordOfSeq?_seqOfWord w

/-- R69: events that never raise Enable transmit nothing. -/
theorem transmitted_eq_nil {evs : List Event} (h : .write .e true ∉ evs) (p : PerRole Level) :
    transmitted p evs = [] := by
  induction evs generalizing p with
  | nil => rfl
  | cons ev evs ih =>
    obtain ⟨hev, hevs⟩ := List.ne_and_not_mem_of_not_mem_cons h
    rw [transmitted, if_neg hev.symm, ih hevs]

/-- R67, R69: a strobe transmits the word on the pins. -/
theorem transmitted_strobeEvents (p : PerRole Level) :
    transmitted p strobeEvents = [busWord (p.set .e .low)] := rfl

/-- R69: one transaction transmits its word, in whatever order its pins are written. -/
theorem transmitted_transaction {w : Word} {writes : List Event} (hwrites : writes.Perm (pinPhaseEvents w))
    (p : PerRole Level) : transmitted p (writes ++ strobeEvents) = [some w] := by
  have hquiet : Event.write .e true ∉ writes := by
    rw [hwrites.mem_iff, mem_pinPhaseEvents]
    rintro ⟨r, hr, h⟩
    exact hr (Event.write.inj h).1
  have hword : busWord ((pinsAfter p writes).set .e .low) = some w := by
    refine busWord_of_levels fun r hr => ?_
    rw [PerRole.get_set_ne _ _ hr, get_pinsAfter_pinPhase hwrites, if_neg hr]
  rw [transmitted_append, transmitted_eq_nil hquiet, transmitted_strobeEvents, hword, List.nil_append]

/-- R36, R69: transactions one after another transmit their words, in order, whatever the levels before them. -/
theorem transmitted_of_busEvents {ws : List Word} {evs : List Event} (h : BusEvents ws evs) (p : PerRole Level) :
    transmitted p evs = ws.map some := by
  induction h generalizing p with
  | nil => rfl
  | cons hwrites _ ih =>
    rw [transmitted_append, transmitted_transaction hwrites, ih]
    rfl

/-! ### Running the words of a call -/

/-- R36, R66, R67: words that have been started are transmitted one after another, sixteen steps each, and the call
returns. -/
theorem startWords_runs (ws : List Word) : ∀ s : State, s.hang = none → presentsEarly s = false →
    ∃ evs choices', BusEvents ws evs ∧ runSteps (16 * ws.length) (startWords ws s) =
      .next (returned (report .ok)
        { s with pin := pinsAfter s.pin evs, trace := s.trace ++ evs, choices := choices' }) := by
  induction ws with
  | nil =>
    intro s _ _
    exact ⟨[], s.choices, .nil, by simp [startWords_nil]⟩
  | cons w ws ih =>
    intro s hhang hwaits
    obtain ⟨writes, hwrites, hfirst⟩ := transaction_runs w (transactions ws) (s := startWords (w :: ws) s)
      (by simp) (by simpa using hhang) ((presentsEarly_congr (by simp)).trans hwaits)
    obtain ⟨evs, choices', hevs, hrest⟩ := ih
      { s with
        pin := levelsOfWord w, trace := s.trace ++ (writes ++ strobeEvents), choices := s.choices + 10 }
      hhang hwaits
    refine ⟨_, choices', .cons hwrites hevs, ?_⟩
    rw [List.length_cons, Nat.mul_succ, Nat.add_comm, runSteps_add hfirst, pinsAfter_append,
      pinsAfter_transaction hwrites, ← List.append_assoc s.trace]
    refine Eq.trans ?_ hrest
    cases ws <;> rfl

/-! ### One call -/

/-- R65: `Send` of a sequence, in Configured and Idle: its word is started, or the sequence has none. -/
theorem execCall_send {s : State} (hp : s.phase = []) (hc : s.configured = true) (bits : List Bool) :
    (∃ w, wordOfSeq? bits = some w ∧ execCall (.send bits) s = .next (startWords [w] s)) ∨
    (wordOfSeq? bits = none ∧ execCall (.send bits) s = .next (silentNoOp .invalidInstructionLength s)) := by
  have hsend : execCall (.send bits) s = send bits s := runSend_eq_send (fun _ _ => encode_of_decodeWord) s
  rw [hsend]
  cases hw : wordOfSeq? bits with
  | some w => exact .inl ⟨w, rfl, by rw [send_of_word hw, sendWord_ready hp hc]⟩
  | none => exact .inr ⟨rfl, send_malformed hp hc ((wordOfSeq?_eq_none_iff bits).mp hw)⟩

/-- R50, R65, R76, R77 (d), R101: in Configured and Idle a well-formed call but `init` writes its flag and starts its
words; one that sends none may instead leave an answer or the word of an encoder function. -/
theorem execCall_accepts {s : State} (hp : s.phase = []) (hc : s.configured = true) {c : Call}
    (hinit : isInit c = false) (hwf : c.wf = true) :
    execCall c s = .next (startWords (acceptedWords s.cfg c) { s with cfg := acceptedCfg s.cfg c }) ∨
    (acceptedWords s.cfg c = [] ∧ acceptedCfg s.cfg c = s.cfg ∧
      ∃ answer encoded, execCall c s = .next { s with answer := answer, encoded := encoded }) := by
  cases c with
  | init _ _ => cases hinit
  | encode e =>
    obtain ⟨i, hi⟩ := Option.isSome_iff_exists.mp ((Command.narrow_isSome_iff e).mpr hwf)
    exact .inr ⟨rfl, rfl, s.answer, some (encode i), by simp [execCall, opEncode, hi]⟩
  | send bits =>
    rcases execCall_send hp hc bits with ⟨w, hw, h⟩ | ⟨hw, h⟩
    · exact .inl (by simp [h, acceptedWords, acceptedCfg, hw])
    · exact .inr ⟨by simp [acceptedWords, hw], rfl, _, s.encoded, h⟩
  | _ => exact .inl (execCall_operation hp hc rfl (by simp))

theorem Emits.append {s t u : State} {evs fvs : List Event} (h : Emits s evs t) (g : Emits t fvs u) :
    Emits s (evs ++ fvs) u := by
  obtain ⟨htrace, hpin⟩ := h
  obtain ⟨gtrace, gpin⟩ := g
  exact ⟨by rw [gtrace, htrace, List.append_assoc], by rw [gpin, hpin, pinsAfter_append]⟩

/-- `u` comes from `s` by bus transactions of the words `ws` and no other event; the block is configured and bound as
before, and calls out return as before. -/
structure Transmits (s : State) (ws : List Word) (u : State) : Prop where
  configured : u.configured = s.configured
  bind : u.bind = s.bind
  hang : u.hang = s.hang
  events : ∃ evs, BusEvents ws evs ∧ Emits s evs u

theorem Transmits.append {s t u : State} {ws vs : List Word} (h : Transmits s ws t) (g : Transmits t vs u) :
    Transmits s (ws ++ vs) u := by
  obtain ⟨evs, hevs, hemits⟩ := h.events
  obtain ⟨fvs, gevs, gemits⟩ := g.events
  exact ⟨g.configured.trans h.configured, g.bind.trans h.bind, g.hang.trans h.hang,
    evs ++ fvs, hevs.append gevs, hemits.append gemits⟩

/-- R36, R50: a well-formed call but `init`, presented to a block that is ready, transmits its words and leaves the
flags of R85 to R95; the block is then Idle again. -/
theorem execCall_runs {s : State} (hready : Ready s) {c : Call} (hinit : isInit c = false) (hwf : c.wf = true) :
    ∃ t u, execCall c s = .next t ∧ runSteps (16 * (callWordNumbers s.cfg c).length) t = .next u ∧
      Transmits s ((callWordNumbers s.cfg c).map (BitVec.ofNat 10)) u ∧
      u.phase = [] ∧ u.cfg = cfgAfterCall s.cfg c ∧ u.program = s.program := by
  obtain ⟨hc, hp, hhang, hwaits⟩ := hready
  have hlen : (callWordNumbers s.cfg c).length = (acceptedWords s.cfg c).length := by simp [acceptedWords_eq]
  rw [hlen, ← acceptedWords_eq, ← acceptedCfg_eq_cfgAfterCall]
  rcases execCall_accepts hp hc hinit hwf with h | ⟨hwords, hcfg, answer, encoded, h⟩
  · obtain ⟨evs, choices', hevs, hrun⟩ :=
      startWords_runs (acceptedWords s.cfg c) { s with cfg := acceptedCfg s.cfg c } hhang hwaits
    exact ⟨_, _, h, hrun, ⟨rfl, rfl, rfl, evs, hevs, rfl, rfl⟩, rfl, rfl, rfl⟩
  · rw [hwords]
    exact ⟨_, _, h, rfl, ⟨rfl, rfl, rfl, [], .nil, .of_unchanged rfl rfl⟩, hp, hcfg.symm, rfl⟩

/-! ### A session -/

/-- R114: the request of a host that waits. -/
def waiting (c : Call) : Request := { call := c, waits := true }

theorem presentsEarly_waiting {s : State} {calls : List Call} (h : s.program = calls.map waiting) :
    presentsEarly s = false := by
  cases calls <;> simp [presentsEarly, h, waiting]

/-- R36, R50: a session of well-formed calls but `init`, presented one after another to a Configured and Idle block,
transmits the words of the calls in program order and leaves the block Idle with the flags of the session. -/
theorem session_runs (calls : List Call) : ∀ s : State, s.configured = true → s.phase = [] → s.hang = none →
    s.program = calls.map waiting → (∀ c ∈ calls, isInit c = false ∧ c.wf = true) →
    ∃ n u, runSteps n s = .next u ∧
      Transmits s ((sessionWordNumbers s.cfg calls).map (BitVec.ofNat 10)) u ∧
      u.phase = [] ∧ u.program = [] ∧ u.cfg = sessionCfg s.cfg calls := by
  induction calls with
  | nil =>
    intro s _ hp _ hprogram _
    exact ⟨0, s, rfl, ⟨rfl, rfl, rfl, [], .nil, .of_unchanged rfl rfl⟩, hp, hprogram, rfl⟩
  | cons c calls ih =>
    intro s hc hp hhang hprogram hcalls
    obtain ⟨⟨hinit, hwf⟩, hcalls⟩ := List.forall_mem_cons.mp hcalls
    have hready : Ready { s with program := calls.map waiting } := ⟨hc, hp, hhang, presentsEarly_waiting rfl⟩
    obtain ⟨t, u, haccept, hrun, hsent, hidle, hcfg, hrest⟩ := execCall_runs hready hinit hwf
    have hstep : step s = .next t := (stepWith_presents hp hprogram _).trans haccept
    obtain ⟨n, v, hruns, hsents, hidles, hrests, hcfgs⟩ :=
      ih u (hsent.configured.trans hc) hidle (hsent.hang.trans hhang) hrest hcalls
    refine ⟨16 * (callWordNumbers s.cfg c).length + n + 1, v, ?_, ?_, hidles, hrests, by rw [hcfgs, hcfg]; rfl⟩
    · rw [runSteps_succ hstep, runSteps_add hrun, hruns]
    · rw [sessionWordNumbers, List.map_append]
      have hpresent : Transmits s [] { s with program := calls.map waiting } :=
        ⟨rfl, rfl, rfl, [], .nil, .of_unchanged rfl rfl⟩
      exact (hpresent.append hsent).append (hcfg ▸ hsents)

/-- Settles O41: the transactions of the session transmit its words, whatever the levels before them. -/
theorem sessionTransmitsTheConcatenation : Obligations.SessionTransmitsTheConcatenation := by
  intro s calls hc hp hhang hprogram hcalls
  obtain ⟨n, u, hrun, hsent, hidle, hrest, hcfg⟩ := session_runs calls s hc hp hhang hprogram hcalls
  obtain ⟨evs, hevs, htrace, _⟩ := hsent.events
  refine ⟨n, u, evs, hrun, hidle, hrest, hsent.configured.trans hc, hsent.bind, hcfg, htrace, ?_⟩
  rw [transmitted_of_busEvents hevs, List.map_map]
  rfl

end Sys2Proof.Machine
end

section
/-! PROOFS (30_encoding.md R45 to R47; 40_encoder_commands.md R52; 41_bus_transaction.md R65). The decoder: the rows of
the opcode map exclude each other, so the row that accepts a word is the row it decodes by, and decoding and encoding
are inverse to each other; the words without an instruction; the step that runs a decoded instruction. -/
namespace Sys2Proof.Machine

/-! ### The rows of the opcode map -/

/-- R45: two rows whose patterns differ in a bit that both of them fix accept no common word. -/
theorem accepts_exclusive {r q : OpcodeRow} (h : r.pattern &&& q.mask ≠ q.pattern &&& r.mask) (w : Word) :
    ¬ (r.accepts w = true ∧ q.accepts w = true) := by
  simp only [OpcodeRow.accepts, beq_iff_eq]
  rintro ⟨hr, hq⟩
  apply h
  rw [← hr, ← hq, BitVec.and_assoc, BitVec.and_assoc, BitVec.and_comm r.mask]

/-- Settles O6: any two rows fix a common bit differently. -/
theorem opcodeRowsExcludeEachOther : Obligations.OpcodeRowsExcludeEachOther := by
  have hdiffer : opcodeMap.Pairwise (fun r q => r.pattern &&& q.mask ≠ q.pattern &&& r.mask) := by decide
  exact hdiffer.imp accepts_exclusive

/-- R45: a word that a row accepts is the instruction of that row. -/
theorem decodeWord_of_accepts {r : OpcodeRow} (hr : r ∈ opcodeMap) {w : Word} (hw : r.accepts w = true) :
    decodeWord w = some (r.build w) := by
  have hsome : (opcodeMap.find? fun q => q.accepts w).isSome = true := List.find?_isSome.mpr ⟨r, hr, hw⟩
  obtain ⟨q, hfind⟩ := Option.isSome_iff_exists.mp hsome
  have hsymm : Std.Symm fun r q : OpcodeRow => ∀ w, ¬ (r.accepts w = true ∧ q.accepts w = true) :=
    ⟨fun _ _ h w => h w ∘ And.symm⟩
  have hq := List.find?_some hfind
  have hsame : q = r := by
    by_contra hne
    exact opcodeRowsExcludeEachOther.forall (List.mem_of_find?_eq_some hfind) hr hne w ⟨hq, hw⟩
  rw [decodeWord, hfind, hsame]
  rfl

/-! ### Decoding and encoding -/

/-- A field of `k` bits is read back from the word of its row, whose pattern is 0 there. -/
theorem setWidth_or_field {k : Nat} (hk : k ≤ 10) {pattern : Word} (hp : pattern.setWidth k = 0#k) (a : BitVec k) :
    (pattern ||| a.setWidth 10).setWidth k = a := by
  rw [BitVec.setWidth_or, hp, BitVec.setWidth_setWidth_of_le a hk, BitVec.setWidth_eq, BitVec.zero_or]

/-- R45: the word of an instruction decodes by the row with its fixed bits. -/
theorem decodeWord_encode_of_row (n : Nat) {i : Instr} (hn : n < opcodeMap.length)
    (hfixed : encode i &&& opcodeMap[n].mask = opcodeMap[n].pattern) (hbuild : opcodeMap[n].build (encode i) = i) :
    decodeWord (encode i) = some i := by
  rw [decodeWord_of_accepts (List.getElem_mem hn) (beq_iff_eq.mpr hfixed)]
  exact congrArg some hbuild

/-- R45, R52: the word of an instruction is that instruction. -/
@[simp] theorem decodeWord_encode (i : Instr) : decodeWord (encode i) = some i := by
  cases i with
  | clearDisplay | returnHome | readBusyFlagAndAddress | readData => rfl
  | entryModeSet i h => cases i <;> cases h <;> rfl
  | displayOnOffControl d c b => cases d <;> cases c <;> cases b <;> rfl
  | cursorDisplayShift h r => cases h <;> cases r <;> rfl
  | functionSet l n f => cases l <;> cases n <;> cases f <;> rfl
  | setCGRAMAddress a =>
    exact decodeWord_encode_of_row 6 (by decide) (Laws.FixedBits.setCGRAMAddress a)
      (congrArg Instr.setCGRAMAddress (setWidth_or_field (by decide) rfl a))
  | setDDRAMAddress a =>
    exact decodeWord_encode_of_row 7 (by decide) (Laws.FixedBits.setDDRAMAddress a)
      (congrArg Instr.setDDRAMAddress (setWidth_or_field (by decide) rfl a))
  | writeData d =>
    exact decodeWord_encode_of_row 9 (by decide) (Laws.FixedBits.writeData d)
      (congrArg Instr.writeData (setWidth_or_field (by decide) rfl d))

theorem decodeWord_eq_some_iff (w : Word) (i : Instr) : decodeWord w = some i ↔ w = encode i :=
  ⟨fun h => (encode_of_decodeWord h).symm, fun h => h ▸ decodeWord_encode i⟩

theorem wordOfSeq?_eq_some_iff (bits : List Bool) (w : Word) : wordOfSeq? bits = some w ↔ bits = seqOfWord w :=
  ⟨fun h => (seqOfWord_of_wordOfSeq? h).symm, fun h => h ▸ wordOfSeq?_seqOfWord w⟩

/-- The decoder answers an instruction for ten bits whose word is that instruction. -/
theorem decodeBits_eq_ok_iff (bits : List Bool) (i : Instr) :
    decodeBits bits = .ok i ↔ ∃ w, wordOfSeq? bits = some w ∧ decodeWord w = some i := by
  unfold decodeBits
  cases wordOfSeq? bits with
  | none => simp
  | some w => cases hi : decodeWord w <;> simp [hi]

/-- Settles O5: both the numeric view of a sequence and the opcode map have an inverse. -/
theorem onlyEncodingsDecode : Obligations.OnlyEncodingsDecode := fun bits i => by
  simp [decodeBits_eq_ok_iff, wordOfSeq?_eq_some_iff, decodeWord_eq_some_iff]

/-- A number of at most ten bits stands for a word whatever it is padded to (log 22). -/
theorem tableSeq_toNat {nbits : Nat} (h : 10 ≤ nbits) (w : Word) : tableSeq nbits w.toNat = seqOfWord w := by
  have hw : w.toNat % 2 ^ nbits = w.toNat :=
    Nat.mod_eq_of_lt (w.isLt.trans_le (Nat.pow_le_pow_right (by decide) h))
  rw [tableSeq, hw, if_pos w.isLt, BitVec.ofNat_toNat, BitVec.setWidth_eq]

theorem decodeTableWord_eq_some_iff (nbits n : Nat) (i : Instr) :
    decodeTableWord nbits n = some i ↔ decodeBits (tableSeq nbits n) = .ok i := by
  unfold decodeTableWord
  cases decodeBits (tableSeq nbits n) <;> simp

/-- Settles O4: a table word padded to ten bits or more is read as the bits of the encoded word, and these decode. -/
theorem decodingInvertsEncoding : Obligations.DecodingInvertsEncoding := by
  intro i _
  have hbits : decodeBits (seqOfWord (encode i)) = .ok i := (onlyEncodingsDecode _ i).mpr rfl
  have htable {nbits : Nat} (h : 10 ≤ nbits) : decodeTableWord nbits (encode i).toNat = some i := by
    rw [decodeTableWord_eq_some_iff, tableSeq_toNat h, hbits]
  exact ⟨hbits, htable (by decide), htable (by decide)⟩

/-- Settles O8: four of the sequences are the words of their instructions, and no row accepts the fifth. -/
theorem writtenOutWordsDecode : Obligations.WrittenOutWordsDecode :=
  ⟨(onlyEncodingsDecode _ _).mpr rfl, (onlyEncodingsDecode _ _).mpr rfl, (onlyEncodingsDecode _ _).mpr rfl,
    (onlyEncodingsDecode _ _).mpr rfl, by decide⟩

/-! ### The words without an instruction -/

/-- R46: a word has no instruction when no row accepts it. -/
theorem decodeWord_eq_none_iff (w : Word) : decodeWord w = none ↔ ∀ r ∈ opcodeMap, ¬ w &&& r.mask = r.pattern := by
  simp [decodeWord, OpcodeRow.accepts]

/-- The parts of a word under two disjoint masks add up to its part under both. -/
theorem toNat_and_add_toNat_and (w : Word) {a b : Word} (h : a &&& b = 0#10) :
    (w &&& a).toNat + (w &&& b).toNat = (w &&& (a ||| b)).toNat := by
  have hdisjoint : (w &&& a) &&& (w &&& b) = 0#10 := by
    rw [BitVec.and_assoc, BitVec.and_comm a, BitVec.and_assoc, BitVec.and_comm b, h, BitVec.and_zero, BitVec.and_zero]
  rw [← BitVec.toNat_add_of_and_eq_zero hdisjoint, BitVec.add_eq_or_of_and_eq_zero _ _ hdisjoint,
    BitVec.and_or_distrib_left]

theorem toNat_and_lowBits (w : Word) (k : Nat) : (w &&& BitVec.ofNat 10 (2 ^ k - 1)).toNat = w.toNat % 2 ^ k := by
  rw [← setWidth_setWidth_eq_and, BitVec.toNat_setWidth, BitVec.toNat_setWidth,
    Nat.mod_eq_of_lt ((Nat.mod_le _ _).trans_lt w.isLt)]

/-- R45 by number: a mask that leaves the bits from `j` up to `k` free compares all the others with the pattern. -/
theorem and_mask_eq_iff {mask : Word} (j k : Nat)
    (hlow : ~~~mask &&& BitVec.ofNat 10 (2 ^ j - 1) = 0#10)
    (hfree : ~~~mask ||| BitVec.ofNat 10 (2 ^ j - 1) = BitVec.ofNat 10 (2 ^ k - 1)) (w pattern : Word) :
    w &&& mask = pattern ↔ w.toNat + w.toNat % 2 ^ j = pattern.toNat + w.toNat % 2 ^ k := by
  have hall : (w &&& mask).toNat + (w &&& ~~~mask).toNat = w.toNat := by
    rw [toNat_and_add_toNat_and w (BitVec.and_not_self mask), BitVec.or_not_self, BitVec.and_allOnes]
  have hbelow := toNat_and_add_toNat_and w hlow
  rw [hfree, toNat_and_lowBits, toNat_and_lowBits] at hbelow
  rw [← BitVec.toNat_inj]
  omega

/-- Settles O7: the eleven rows of the opcode map by number. -/
theorem nonCanonicalWordsAreTheListedOnes : Obligations.NonCanonicalWordsAreTheListedOnes := by
  intro w
  have hfixed := and_mask_eq_iff (mask := 0x3FF#10) 0 0 rfl rfl w
  have hentryMode := and_mask_eq_iff (mask := 0x3FC#10) 0 2 rfl rfl w
  have honOff := and_mask_eq_iff (mask := 0x3F8#10) 0 3 rfl rfl w
  have hshift := and_mask_eq_iff (mask := 0x3F3#10) 2 4 rfl rfl w
  have hfunction := and_mask_eq_iff (mask := 0x3E3#10) 2 5 rfl rfl w
  have hcgram := and_mask_eq_iff (mask := 0x3C0#10) 0 6 rfl rfl w
  have hddram := and_mask_eq_iff (mask := 0x380#10) 0 7 rfl rfl w
  have hdata := and_mask_eq_iff (mask := 0x300#10) 0 8 rfl rfl w
  have hlt := w.isLt
  simp only [decodeWord_eq_none_iff, opcodeMap, List.forall_mem_cons, List.not_mem_nil, false_imp_iff, implies_true,
    and_true, hfixed, hentryMode, honOff, hshift, hfunction, hcgram, hddram, hdata, BitVec.toNat_ofNat, Nat.reducePow,
    Nat.reduceMod, Nat.mod_one, Nat.add_zero]
  clear hfixed hentryMode honOff hshift hfunction hcgram hddram hdata
  omega

/-! ### The step that runs an instruction -/

/-- R65 (log 1): `Send` of the bits of an instruction executes it. -/
theorem runSend_of_decodeBits {bits : List Bool} {i : Instr} (h : decodeBits bits = .ok i) (s : State) :
    runSend bits s = exec i s := by simp only [runSend, h]

/-- R65: the step of an Idle block whose host sends the bits of an instruction. -/
theorem step_of_send {s : State} (hp : s.phase = []) {q : Request} {rest : List Request}
    (hprogram : s.program = q :: rest) {bits : List Bool} (hq : q.call = .send bits) {i : Instr}
    (hbits : decodeBits bits = .ok i) : step s = exec i { s with program := rest } := by
  rw [step, stepWith_presents hp hprogram, hq]
  exact runSend_of_decodeBits hbits _

/-- Settles O13: a table word is placed as a request that sends its bits. -/
theorem stepRunsTheDecodedInstruction : Obligations.StepRunsTheDecodedInstruction := by
  constructor
  · intro s q rest bits i hp hprogram hq hbits
    exact step_of_send hp hprogram hq hbits
  · intro s nbits n i h
    exact step_of_send (withFetchWord_phase s nbits n) (withFetchWord_program s nbits n) rfl
      ((decodeTableWord_eq_some_iff nbits n i).mp h)

end Sys2Proof.Machine
end

section
/-! PROOFS (40_encoder_commands.md R52 to R64; 41_bus_transaction.md R65 to R67). The encoder functions: the number of
each word, what evaluating one answers, and the transaction that executing its instruction starts. -/
namespace Sys2Proof.Machine

/-! ### The words by number -/

/-- R54 to R64: the word of an encoder call as a number. -/
def commandNumber : Command → Nat
  | .clearDisplay => 0x001
  | .returnHome => 0x003
  | .entryModeSet increment shiftDisplay => 0x004 + 2 * increment.toNat + shiftDisplay.toNat
  | .displayOnOffControl displayOn cursorOn blinkOn => 0x008 + 4 * displayOn.toNat + 2 * cursorOn.toNat + blinkOn.toNat
  | .cursorDisplayShift shiftDisplay shiftRight => 0x010 + 8 * shiftDisplay.toNat + 4 * shiftRight.toNat
  | .functionSet is8Bit twoLines font5x10 => 0x020 + 16 * is8Bit.toNat + 8 * twoLines.toNat + 4 * font5x10.toNat
  | .setCGRAMAddress address => 0x040 + address
  | .setDDRAMAddress address => 0x080 + address
  | .readBusyFlagAndAddress => 0x100
  | .writeData data => 0x200 + data
  | .readData => 0x300

/-- R60, R61: a fixed bit above an address is its power of two added to the address. -/
theorem twoPow_or_setWidth {k : Nat} (a : BitVec k) :
    BitVec.ofNat 10 (2 ^ k) ||| a.setWidth 10 = BitVec.ofNat 10 (2 ^ k + a.toNat) := by
  rw [← BitVec.ofNat_toNat]
  exact twoPow_or_field a.isLt

/-- R54 to R64: the encoder returns the word with the call's number. -/
theorem encode_eq_ofNat (i : Instr) : encode i = BitVec.ofNat 10 (commandNumber i.toCommand) := by
  cases i with
  | clearDisplay | returnHome | readBusyFlagAndAddress | readData => rfl
  | entryModeSet i h => cases i <;> cases h <;> rfl
  | displayOnOffControl d c b =>
    exact displayConfigWord_eq { Cfg.reset with displayOn := d, cursorOn := c, cursorBlink := b }
  | cursorDisplayShift h r => cases h <;> cases r <;> rfl
  | functionSet l n f => exact textConfigWord_eq { Cfg.reset with bitWidth := l, lineCount := n, font := f }
  | setCGRAMAddress a => exact twoPow_or_setWidth a
  | setDDRAMAddress a => exact twoPow_or_setWidth a
  | writeData d => exact encodeWriteData_eq d

/-- R53: an argument that fits its field is not changed by it. -/
theorem toCommand_of_narrow {c : Command} {i : Instr} (h : c.narrow = some i) : i.toCommand = c := by
  cases c with
  | setCGRAMAddress a | setDDRAMAddress a | writeData a =>
    obtain ⟨hrange, ⟨⟩⟩ := Option.ite_none_right_eq_some.mp h
    have hlt := of_decide_eq_true hrange
    simp [Instr.toCommand, Nat.mod_eq_of_lt hlt]
  | _ =>
    cases h
    rfl

/-! ### Evaluating an encoder function -/

/-- R52: the call of an instruction returns its word. -/
theorem execCall_encode_toCommand (i : Instr) (s : State) :
    execCall (.encode i.toCommand) s = .next { s with encoded := some (encode i) } := by
  simp [execCall, opEncode, Command.narrow_toCommand]

/-- R52: a call whose arguments fit returns the word with its number. -/
theorem execCall_encode_of_wf {c : Command} (h : c.wf = true) (s : State) :
    execCall (.encode c) s = .next { s with encoded := some (BitVec.ofNat 10 (commandNumber c)) } := by
  obtain ⟨i, hi⟩ := Option.isSome_iff_exists.mp ((Command.narrow_isSome_iff c).mpr h)
  obtain rfl := toCommand_of_narrow hi
  rw [execCall_encode_toCommand, encode_eq_ofNat]

/-- R53: a call is refused exactly when an argument does not fit. -/
theorem execCall_encode_refused_iff (c : Command) (s : State) :
    execCall (.encode c) s = .refused .encoderArgumentOutOfRange ↔ c.wf = false := by
  rw [← Bool.not_eq_true, ← Command.narrow_isSome_iff]
  cases hi : c.narrow <;> simp [execCall, opEncode, hi]

/-- R53: an argument that does not fit is one of the three numbers, at its bound or above. -/
theorem wf_eq_false_iff (c : Command) :
    c.wf = false ↔ ((∃ a, c = .setCGRAMAddress a ∧ 64 ≤ a) ∨ (∃ a, c = .setDDRAMAddress a ∧ 128 ≤ a) ∨
      (∃ d, c = .writeData d ∧ 256 ≤ d)) := by
  cases c with
  | setCGRAMAddress a => simp [Command.wf, cgramAddressInRange]
  | setDDRAMAddress a => simp [Command.wf, ddramAddressInRange]
  | writeData d => simp [Command.wf, dataInRange]
  | _ => simp [Command.wf]

/-- Settles O9: each of the calls fits its fields. -/
theorem encoderReturnsTheWordAndTouchesNothing : Obligations.EncoderReturnsTheWordAndTouchesNothing := by
  intro s answers
  have hword (c : Command) (h : c.wf = true) : answers c (commandNumber c) := execCall_encode_of_wf h s
  exact ⟨hword .clearDisplay rfl, hword .returnHome rfl, fun i h => hword (.entryModeSet i h) rfl,
    fun d c b => hword (.displayOnOffControl d c b) rfl, fun h r => hword (.cursorDisplayShift h r) rfl,
    fun l n f => hword (.functionSet l n f) rfl,
    fun a ha => hword (.setCGRAMAddress a) (decide_eq_true ha),
    fun a ha => hword (.setDDRAMAddress a) (decide_eq_true ha),
    hword .readBusyFlagAndAddress rfl, fun d hd => hword (.writeData d) (decide_eq_true hd), hword .readData rfl⟩

/-- Settles O10: refused are exactly the calls that are not well formed. -/
theorem encoderRefusesWideArguments : Obligations.EncoderRefusesWideArguments := fun c s =>
  (execCall_encode_refused_iff c s).trans (wf_eq_false_iff c)

/-- Settles O11: the request is presented in either case, and the call of an instruction returns its word. -/
theorem encoderIsEvaluatedWhateverRuns : Obligations.EncoderIsEvaluatedWhateverRuns := by
  intro s q rest i hprogram hcall hpresents
  have hpresented : presented s = some (q, rest) :=
    hpresents.elim (presented_idle · hprogram) (presented_early hprogram)
  rw [step, stepWith_presented hpresented, hcall, execCall_encode_toCommand]

/-! ### Executing an instruction -/

/-- R65 to R67: a word sent in Configured is one transaction of sixteen steps, and nothing else changes. -/
theorem sendWord_sendsWord {s : State} (hready : Ready s) (n : Nat) :
    SendsWord s n (sendWord (BitVec.ofNat 10 n) s) := by
  obtain ⟨hc, hp, hhang, hwaits⟩ := hready
  obtain ⟨writes, hwrites, hrun⟩ :=
    transaction_runs (BitVec.ofNat 10 n) [] (s := startWords [BitVec.ofNat 10 n] s) (by simp) (by simpa using hhang)
      ((presentsEarly_congr (by simp)).trans hwaits)
  exact ⟨_, _, writes, sendWord_ready hp hc _, hrun, hwrites, rfl⟩

/-- R54 to R64, R65 to R67: executing an instruction in Configured is one transaction of its word. -/
theorem exec_sendsWord {s : State} (hready : Ready s) (i : Instr) :
    SendsWord s (commandNumber i.toCommand) (exec i s) := by
  rw [exec_eq_sendWord, encode_eq_ofNat]
  exact sendWord_sendsWord hready _

/-- Settles O15: the words of R54 to R59 by number. -/
theorem controlCommandsSendTheirWords : Obligations.ControlCommandsSendTheirWords := fun _ hready =>
  ⟨exec_sendsWord hready .clearDisplay, exec_sendsWord hready .returnHome,
    fun i h => exec_sendsWord hready (.entryModeSet i h),
    fun d c b => exec_sendsWord hready (.displayOnOffControl d c b),
    fun h r => exec_sendsWord hready (.cursorDisplayShift h r),
    fun l n f => exec_sendsWord hready (.functionSet l n f)⟩

/-- Settles O16: the words of R60 and R61 by number. -/
theorem addressCommandsSendTheirWords : Obligations.AddressCommandsSendTheirWords := fun _ hready =>
  ⟨fun a => exec_sendsWord hready (.setCGRAMAddress a), fun a => exec_sendsWord hready (.setDDRAMAddress a)⟩

/-- Settles O17: the words of R62 to R64 by number. -/
theorem dataAndReadCommandsSendTheirWords : Obligations.DataAndReadCommandsSendTheirWords := fun _ hready =>
  ⟨fun d => exec_sendsWord hready (.writeData d), exec_sendsWord hready .readBusyFlagAndAddress,
    exec_sendsWord hready .readData⟩

/-! ### The bits of a decoded word, and the uses of a word -/

/-- R44: the word of every instruction has the fixed bits of its row. -/
theorem fixedBits_encode (i : Instr) : Laws.FixedBits.Statement i := by
  cases i with
  | clearDisplay | returnHome | readBusyFlagAndAddress | readData => rfl
  | entryModeSet i h => exact Laws.FixedBits.entryModeSet i h
  | displayOnOffControl d c b => exact Laws.FixedBits.displayOnOffControl d c b
  | cursorDisplayShift h r => exact Laws.FixedBits.cursorDisplayShift h r
  | functionSet l n f => exact Laws.FixedBits.functionSet l n f
  | setCGRAMAddress a => exact Laws.FixedBits.setCGRAMAddress a
  | setDDRAMAddress a => exact Laws.FixedBits.setDDRAMAddress a
  | writeData d => exact Laws.FixedBits.writeData d

/-- R45: a word that is an instruction has the fixed bits of that instruction. -/
theorem fixedBits_of_decodeWord {w : Word} {i : Instr} (h : decodeWord w = some i) :
    w &&& Laws.FixedBits.maskOf i = Laws.FixedBits.matchOf i :=
  encode_of_decodeWord h ▸ fixedBits_encode i

/-- R45: a word with the fixed bits of a row is the instruction that the row builds from it. -/
theorem decodeWord_of_fixedBits (n : Nat) (hn : n < opcodeMap.length) {w : Word}
    (h : w &&& opcodeMap[n].mask = opcodeMap[n].pattern) : decodeWord w = some (opcodeMap[n].build w) :=
  decodeWord_of_accepts (List.getElem_mem hn) (beq_iff_eq.mpr h)

/-- R45, R54: the word of `ClearDisplay` by its mask. -/
theorem decodeWord_eq_clearDisplay_iff (w : Word) :
    decodeWord w = some .clearDisplay ↔ w &&& 0x3FF#10 = 0x001#10 :=
  ⟨fixedBits_of_decodeWord, decodeWord_of_fixedBits 0 (by decide)⟩

/-- R45, R56: a word of `EntryModeSet` by its mask, with its parameters at DB1 and DB0. -/
theorem decodeWord_eq_entryModeSet_iff (w : Word) (i h : Bool) :
    decodeWord w = some (.entryModeSet i h) ↔ w &&& 0x3FC#10 = 0x004#10 ∧ i = w.getLsbD 1 ∧ h = w.getLsbD 0 := by
  have hbuild : w &&& 0x3FC#10 = 0x004#10 → decodeWord w = some (.entryModeSet (w.getLsbD 1) (w.getLsbD 0)) :=
    decodeWord_of_fixedBits 2 (by decide)
  constructor
  · intro hw
    have hfixed := fixedBits_of_decodeWord hw
    exact ⟨hfixed, Instr.entryModeSet.inj (Option.some.inj (hw.symm.trans (hbuild hfixed)))⟩
  · rintro ⟨hfixed, rfl, rfl⟩
    exact hbuild hfixed

/-- R45, R57: a word of `DisplayOnOffControl` by its mask, with its parameters at DB2, DB1 and DB0. -/
theorem decodeWord_eq_displayOnOffControl_iff (w : Word) (d c b : Bool) :
    decodeWord w = some (.displayOnOffControl d c b) ↔
      w &&& 0x3F8#10 = 0x008#10 ∧ d = w.getLsbD 2 ∧ c = w.getLsbD 1 ∧ b = w.getLsbD 0 := by
  have hbuild : w &&& 0x3F8#10 = 0x008#10 →
      decodeWord w = some (.displayOnOffControl (w.getLsbD 2) (w.getLsbD 1) (w.getLsbD 0)) :=
    decodeWord_of_fixedBits 3 (by decide)
  constructor
  · intro hw
    have hfixed := fixedBits_of_decodeWord hw
    exact ⟨hfixed, Instr.displayOnOffControl.inj (Option.some.inj (hw.symm.trans (hbuild hfixed)))⟩
  · rintro ⟨hfixed, rfl, rfl, rfl⟩
    exact hbuild hfixed

/-- R76: `Send` tests the mode itself, so a test of the mode in front of it changes nothing. -/
theorem whenConfigured_sendWord (w : Word) (s : State) : whenConfigured s (sendWord w s) = sendWord w s := by
  rcases whenConfigured_cases s (sendWord w s) with ⟨hp, h⟩ | ⟨hp, hc, h⟩ | ⟨_, _, h⟩
  · rw [h, sendWord_running hp]
  · rw [h, sendWord_unconfigured hp hc]
  · exact h

/-- Settles O12: the encoder call of an instruction returns its word, and the opcode map says which words these are. -/
theorem threeEncoderRulesAsWritten : Obligations.ThreeEncoderRulesAsWritten := by
  intro s
  refine ⟨⟨execCall_encode_toCommand .clearDisplay s, decodeWord_eq_clearDisplay_iff,
      whenConfigured_sendWord _ s, rfl⟩,
    ⟨fun i h => execCall_encode_toCommand (.entryModeSet i h) s, ?_, ?_, rfl⟩,
    ⟨fun d c b => execCall_encode_toCommand (.displayOnOffControl d c b) s, ?_, ?_, applyDisplayConfig_eq s⟩⟩
  · simp [decodeWord_eq_entryModeSet_iff]
  · exact fun w i h hw => ((decodeWord_eq_entryModeSet_iff w i h).mp hw).2
  · simp [decodeWord_eq_displayOnOffControl_iff]
  · exact fun w d c b hw => ((decodeWord_eq_displayOnOffControl_iff w d c b).mp hw).2

end Sys2Proof.Machine
end

section
/-! PROOFS (41_bus_transaction.md R65 to R67, R69; 60_exceptions.md R101, R102). `Send` of a word, and of the word of an
instruction, as the block accepts it; the order of the pin writes, for the observer and in the model. -/
namespace Sys2Proof.Machine

/-! ### Executing an instruction -/

/-- Settles O19: executing an instruction is `Send` of its word, which tests the mode. -/
theorem instructionsInUnconfiguredDoNothing : Obligations.InstructionsInUnconfiguredDoNothing := by
  intro i s hc hp
  rw [exec_eq_sendWord]
  exact sendWord_unconfigured hp hc (encode i)

/-- Settles O18: of the three answers of `exec` the refusal is no next state, the no-op writes the answer, and the start
of the word writes the phase and the answer. -/
theorem instructionFrame : Obligations.InstructionFrame := by
  intro i s t h
  rcases exec_cases i s with ⟨_, he⟩ | ⟨_, hc, he⟩ | ⟨_, hc, he⟩
  · cases he.symm.trans h
  · obtain rfl := Host.Outcome.next.inj (he.symm.trans h)
    exact ⟨rfl, rfl, rfl, rfl, rfl, rfl, rfl, rfl, rfl, .inl ⟨hc, rfl, rfl⟩⟩
  · obtain rfl := Host.Outcome.next.inj (he.symm.trans h)
    exact ⟨rfl, rfl, rfl, rfl, rfl, rfl, rfl, rfl, rfl, .inr ⟨hc, rfl, rfl⟩⟩

/-! ### `Send` of a bit sequence -/

/-- R65: a host's `Send` is `Send`, whether the bits are an instruction or not. -/
theorem execCall_send_eq_send (bits : List Bool) (s : State) : execCall (.send bits) s = send bits s :=
  runSend_eq_send (fun _ _ => encode_of_decodeWord) s

/-- R7: ten bits have their numeral as numeric view. -/
theorem wordOfSeq?_of_length {bits : List Bool} (h : bits.length = 10) :
    wordOfSeq? bits = some (BitVec.ofNat 10 (numeral bits)) := by
  have hlist := wordOfSeq?_toList bits
  rw [if_pos h] at hlist
  exact Option.toList_eq_singleton_iff.mp hlist

/-- Settles O20: ten bits are the word of their numeral; the tests of the mode and of the length answer the rest. -/
theorem sendTransmitsOrDoesNothing : Obligations.SendTransmitsOrDoesNothing := by
  intro bits s hp
  rw [execCall_send_eq_send]
  refine ⟨fun hready hlen => ?_, fun hc hlen => send_malformed hp hc hlen,
    fun hc => whenConfigured_unconfigured hp hc _⟩
  rw [send_of_word (wordOfSeq?_of_length hlen)]
  exact sendWord_sendsWord hready (numeral bits)

/-! ### The order of the pin writes -/

/-- Settles O22: what an observer reads from one transaction, and the levels at its end. -/
theorem transmittedWordIsTheWordSent : Obligations.TransmittedWordIsTheWordSent := fun _ _ p hwrites =>
  ⟨transmitted_transaction hwrites p, pinsAfter_transaction hwrites p⟩

/-- R66: any role that a pin phase has left can be the next one written. -/
theorem stepWith_pins {w : Word} {r : Role} {before after : List Role} {ts : List Task} {s : State}
    (hp : s.phase = .pins w (before ++ r :: after) :: ts) (hhang : s.hang = none) (hwaits : presentsEarly s = false) :
    ∃ k t, stepWith k s = .next t ∧ t.trace = s.trace ++ [writeOf w r] ∧
      t.phase = afterPin w (before ++ after) ts ∧ t.hang = none ∧ presentsEarly t = false := by
  have hstep : stepWith ⟨before.length, 0, false⟩ s = .next (continueWith (afterPin w (before ++ after) ts)
      (tookChoice (setPin r (wordBit w r) (record (writeOf w r) s)))) := by
    rw [stepWith_running hp hwaits, runTask, pinStep, pick_index]
    exact callOut_returns (by simp [hhang]) _ _
  exact ⟨_, _, hstep, by simp, by simp, by simp [hhang], (presentsEarly_congr (by simp)).trans hwaits⟩

/-- R66, D7: a pin phase can write the roles it has left in every order. -/
theorem runWith_pinPhase (w : Word) (ts : List Task) (writes : List Event) : ∀ (left : List Role) (s : State),
    writes.Perm (left.map (writeOf w)) → s.phase = afterPin w left ts → s.hang = none → presentsEarly s = false →
    ∃ ks u, ks.length = writes.length ∧ runWith ks s = .next u ∧ u.trace = s.trace ++ writes := by
  induction writes with
  | nil => exact fun _ s _ _ _ _ => ⟨[], s, rfl, rfl, by simp⟩
  | cons ev writes ih =>
    intro left s hperm hp hhang hwaits
    obtain ⟨r, hr, rfl⟩ := List.mem_map.mp (hperm.subset List.mem_cons_self)
    obtain ⟨before, after, rfl⟩ := List.append_of_mem hr
    have hrest : writes.Perm ((before ++ after).map (writeOf w)) := by
      refine (hperm.trans ?_).cons_inv
      exact List.perm_middle.map (writeOf w)
    have hpins : s.phase = .pins w (before ++ r :: after) :: ts := by rw [hp]; cases before <;> rfl
    obtain ⟨k, t, hstep, ht, htp, hthang, htwaits⟩ := stepWith_pins hpins hhang hwaits
    obtain ⟨ks, u, hlen, hrun, hu⟩ := ih (before ++ after) t hrest htp hthang htwaits
    refine ⟨k :: ks, u, by simp [hlen], ?_, by simp [hu, ht]⟩
    rw [runWith, hstep]
    exact hrun

/-- Settles O23: the ten roles of a pin phase are the roles it has left at its start. -/
theorem everyWriteOrderIsPossible : Obligations.EveryWriteOrderIsPossible := by
  intro w writes s ts hwrites hp hhang hwaits
  obtain ⟨ks, u, hlen, hrun, htrace⟩ := runWith_pinPhase w ts writes wordRoles s hwrites hp hhang hwaits
  exact ⟨ks, u, hlen.trans hwrites.length_eq, hrun, htrace⟩

end Sys2Proof.Machine
end

section
/-! PROOFS (41_bus_transaction.md R66 to R69, R71 to R73, R75; 60_exceptions.md R112; 70_reset_and_hazards.md R123).
What holds along every run: the bus protocol and the level of Enable, the events a run can emit, how long a call keeps its
caller suspended, and that it returns. -/
namespace Sys2Proof.Machine

/-! ### The bus protocol -/

/-- The invariant holds at the end of every run from reset. -/
theorem blockInv_of_run {program : List Request} {hang : Option Nat} {n : Nat} {s : State}
    (h : runSteps n (freshBlock program hang) = .next s) : BlockInv s :=
  runSteps_induction everyStepKeepsTheInvariant (invariantHoldsAfterReset program hang) h

/-- Settles O47: the observer's protocol is part of the invariant. -/
theorem everyRunFollowsTheBusProtocol : Obligations.EveryRunFollowsTheBusProtocol := by
  intro program hang n s h
  obtain ⟨m, hm, _⟩ := (blockInv_of_run h).protocol
  exact ⟨m, hm⟩

/-- R67, R75: where the observer stands at `m`, Enable is not among the roles of a pin phase, and it is high only in the
second hold. -/
structure EnableAt (m : Watch) (level : Level) : Prop where
  notLoaded : ∀ missing, m = .load missing → .e ∉ missing
  high : level = .high → m = .raised ∨ m = .held2

/-- R67, R75: every event of the protocol keeps Enable in its place. -/
theorem EnableAt.event {p : PerRole Level} {m m' : Watch} {ev : Event} (h : EnableAt m (p.get .e))
    (hev : watchEvent m ev = some m') : EnableAt m' ((seeEvent p ev).get .e) := by
  have hroles : ∀ missing, Watch.load wordRoles = .load missing → .e ∉ missing := by
    rintro _ ⟨⟩
    decide
  rcases watchEvent_cases hev with ⟨rfl, rfl, hw⟩ | ⟨rfl, rfl, rfl⟩ | ⟨missing, r, v, rfl, rfl, hr, rfl⟩ |
    ⟨rfl, rfl, rfl⟩ | ⟨rfl, rfl, rfl⟩ | ⟨rfl, rfl, rfl⟩ | ⟨rfl, rfl, rfl⟩ | ⟨rfl, rfl, rfl⟩ | ⟨rfl, rfl, rfl⟩
  · rwa [seeEvent_of_not_write hw]
  · exact ⟨hroles, by simp [seeEvent, levelOf]⟩
  · have hne : .e ∉ missing := h.notLoaded missing rfl
    have hr : Role.e ≠ r := fun he => hne (he ▸ hr)
    refine ⟨?_, fun hhigh => ?_⟩
    · rintro _ ⟨⟩
      exact fun he => hne (List.mem_of_mem_erase he)
    · rw [seeEvent, PerRole.get_set_ne _ _ hr] at hhigh
      simpa using h.high hhigh
  · exact ⟨by simp, by simp [seeEvent, levelOf]⟩
  · exact ⟨by simp, fun hhigh => by simpa using h.high hhigh⟩
  · exact ⟨by simp, fun _ => .inl rfl⟩
  · exact ⟨by simp, fun _ => .inr rfl⟩
  · exact ⟨by simp, by simp [seeEvent, levelOf]⟩
  · exact ⟨hroles, fun hhigh => by simpa using h.high hhigh⟩

/-- R75: in a trace that follows the protocol Enable is high only in the second hold. -/
theorem enableAt_of_watch {tr : List Event} {m : Watch} (h : watch .binding tr = some m) :
    EnableAt m ((pinsAfter (everyRole .unknown) tr).get .e) := by
  refine watch_induction (P := fun tr m => EnableAt m ((pinsAfter (everyRole .unknown) tr).get .e))
    ⟨by simp, by simp⟩ (fun tr m ev m' hm hev => ?_) h
  rw [pinsAfter_append]
  exact hm.event hev

/-- Settles O48: the pins are settled when nothing is left to run, and at any time they are those of the trace. -/
theorem enableIsHighOnlyInTheSecondHold : Obligations.EnableIsHighOnlyInTheSecondHold := by
  intro program hang n s h
  have hinv := blockInv_of_run h
  refine ⟨fun hc hp => ?_, fun hhigh => ?_⟩
  · have hsettled : Settled s.pin := by simpa [hp] using hinv.settled hc
    exact hsettled.1
  · obtain ⟨m, hm, _⟩ := hinv.protocol
    rw [hinv.lastWritten] at hhigh
    simpa [hm] using (enableAt_of_watch hm).high hhigh

/-- The observer stands from the end of a pin phase to the end of the third hold (R67, R68). -/
def InStrobe (m : Watch) : Prop :=
  m = .load [] ∨ m = .low1 ∨ m = .held1 ∨ m = .raised ∨ m = .held2 ∨ m = .low2

/-- R67, R69: in a strobe the protocol allows no write but one of Enable. -/
theorem seeEvent_of_inStrobe {m m' : Watch} {ev : Event} (hm : InStrobe m) (hev : watchEvent m ev = some m')
    (p : PerRole Level) {r : Role} (hr : r ≠ .e) : (seeEvent p ev).get r = p.get r := by
  have hcases : ev = .hold ∨ ∃ v, ev = .write .e v := by
    rcases watchEvent_cases hev with ⟨rfl, _⟩ | ⟨rfl, _⟩ | ⟨missing, _, _, rfl, _, hmissing, _⟩ | ⟨_, rfl, _⟩ |
      ⟨_, rfl, _⟩ | ⟨_, rfl, _⟩ | ⟨_, rfl, _⟩ | ⟨_, rfl, _⟩ | ⟨_, rfl, _⟩
    · simp [InStrobe] at hm
    · simp [InStrobe] at hm
    · obtain rfl : missing = [] := by simpa [InStrobe] using hm
      cases hmissing
    · exact .inr ⟨_, rfl⟩
    · exact .inl rfl
    · exact .inr ⟨_, rfl⟩
    · exact .inl rfl
    · exact .inr ⟨_, rfl⟩
    · exact .inl rfl
  rcases hcases with rfl | ⟨v, rfl⟩
  · rfl
  · exact PerRole.get_set_ne _ _ hr

/-- Settles O49: a step emits at most one event, which the protocol allows, since the next state meets the invariant. -/
theorem linesAreSteadyDuringTheStrobe : Obligations.LinesAreSteadyDuringTheStrobe := by
  intro s t m hinv hstep hm hstrobe r hr
  obtain ⟨evs, hlen, htrace, hpin, _⟩ := eachStepEmitsAtMostOneEvent s t hstep
  obtain ⟨m', hm', _⟩ := (everyStepKeepsTheInvariant s t hinv hstep).protocol
  match evs, hlen with
  | [], _ => rw [hpin, pinsAfter_nil]
  | [ev], _ =>
    have hev : watchEvent m ev = some m' := by
      rw [htrace, watch_append, hm] at hm'
      simpa [watch] using hm'
    rw [hpin, pinsAfter_singleton]
    exact seeEvent_of_inStrobe hstrobe hev s.pin hr

/-! ### How a running call goes on -/

/-- R71: `u` still has tasks ahead and the answer of `s`, or the call has returned with an answer. -/
def GoesOnOrReturns (s u : State) : Prop :=
  (u.phase ≠ [] ∧ u.answer = s.answer) ∨ (u.phase = [] ∧ u.answer ≠ none)

theorem continueWith_goesOnOrReturns (ts : List Task) (s : State) : GoesOnOrReturns s (continueWith ts s) := by
  cases ts with
  | nil => exact .inr ⟨rfl, by simp⟩
  | cons t ts => exact .inl ⟨by simp, rfl⟩

theorem bindGoesOn_goesOnOrReturns (stop : Bool) (j : BindJob) (ts : List Task) (s : State) :
    GoesOnOrReturns s (bindGoesOn stop j ts s) := by
  unfold bindGoesOn
  split_ifs
  · exact .inr ⟨rfl, by simp⟩
  · exact continueWith_goesOnOrReturns ts s
  · exact .inl ⟨by simp, rfl⟩

/-- R71: running a task leaves the caller suspended, or the call returns. -/
theorem runTask_goesOnOrReturns {k : Choice} {t : Task} {ts : List Task} {s u : State}
    (h : runTask k t ts s = .next u) : GoesOnOrReturns s u := by
  rcases runTask_cases h with ⟨j, _, _, rfl⟩ | ⟨j, c, _, _, _, rfl⟩ | ⟨w, _, rfl⟩ | ⟨w, r, _, _, _, _, rfl⟩ |
    ⟨r, v, _, _, rfl⟩ | ⟨_, _, rfl⟩ | ⟨_, rfl⟩
  case inl | inr.inl => exact bindGoesOn_goesOnOrReturns _ _ _ _
  all_goals exact continueWith_goesOnOrReturns _ _

@[simp] theorem bindGoesOn_program (stop : Bool) (j : BindJob) (ts : List Task) (s : State) :
    (bindGoesOn stop j ts s).program = s.program := by
  unfold bindGoesOn
  split_ifs <;> simp

@[simp] theorem bindGoesOn_hang (stop : Bool) (j : BindJob) (ts : List Task) (s : State) :
    (bindGoesOn stop j ts s).hang = s.hang := by
  unfold bindGoesOn
  split_ifs <;> simp

/-- R112: a task takes no request from the host's program, and calls out go on to return. -/
theorem runTask_host {k : Choice} {t : Task} {ts : List Task} {s u : State} (h : runTask k t ts s = .next u) :
    u.program = s.program ∧ (s.hang = none → u.hang = none) := by
  rcases runTask_cases h with ⟨j, _, _, rfl⟩ | ⟨j, c, _, _, _, rfl⟩ | ⟨w, _, rfl⟩ | ⟨w, r, _, _, _, _, rfl⟩ |
    ⟨r, v, _, _, rfl⟩ | ⟨_, _, rfl⟩ | ⟨_, rfl⟩
  all_goals exact ⟨by simp, fun hhang => by simp [hhang]⟩

/-! ### The length of a call -/

/-- The trace grows by at most one event a step. -/
theorem runSteps_trace_length_le {n : Nat} {s u : State} (h : runSteps n s = .next u) :
    u.trace.length ≤ s.trace.length + n := by
  induction n generalizing s with
  | zero =>
    cases h
    simp
  | succ n ih =>
    obtain ⟨t, hstep, hrun⟩ := runSteps_succ_next h
    obtain ⟨evs, hlen, htrace, _⟩ := eachStepEmitsAtMostOneEvent s t hstep
    have := ih hrun
    rw [htrace, List.length_append] at this
    omega

/-- A run of `m + n` steps that answers a next state begins with one of `m` steps that does. -/
theorem runSteps_add_next {m n : Nat} {s u : State} (h : runSteps (m + n) s = .next u) :
    ∃ t, runSteps m s = .next t ∧ runSteps n t = .next u := by
  induction m generalizing s with
  | zero => exact ⟨s, rfl, by simpa using h⟩
  | succ m ih =>
    rw [Nat.succ_add] at h
    obtain ⟨t, hstep, hrun⟩ := runSteps_succ_next h
    obtain ⟨v, hm, hn⟩ := ih hrun
    exact ⟨v, by rw [runSteps_succ hstep, hm], hn⟩

/-- R71: the caller has no answer while a call runs. -/
def Suspended (s : State) : Prop := s.phase ≠ [] → s.answer = none

/-- R71: an accepted call has answered or keeps its caller suspended. -/
theorem execCall_suspended {c : Call} {s t : State} (hp : s.phase = []) (h : execCall c s = .next t) : Suspended t := by
  rcases execCall_cases hp h with
    ⟨_, _, _, _, rfl⟩ | ⟨_, ws, rfl⟩ | ⟨_, rfl, _⟩ | ⟨_, _, rfl⟩ | ⟨_, _, _, rfl⟩
  · exact fun _ => rfl
  · cases ws with
    | nil => exact absurd rfl
    | cons w ws => exact fun _ => rfl
  all_goals exact absurd hp

/-- R71: every step keeps the caller of a running call suspended. -/
theorem step_suspended {s t : State} (hs : Suspended s) (h : step s = .next t) : Suspended t := by
  rcases stepWith_cases h with
    ⟨_, _, rfl⟩ | ⟨q, rest, hp, _, hc⟩ | ⟨_, _, _, _, _, rfl⟩ | ⟨task, ts, hp, _, hr⟩
  · exact hs
  · exact execCall_suspended (s := { s with program := rest }) hp hc
  · exact hs
  · rcases runTask_goesOnOrReturns hr with ⟨_, ha⟩ | ⟨hidle, _⟩
    · exact fun _ => ha.trans (hs (by simp [hp]))
    · exact absurd hidle

/-- A run that has emitted as many events as it can was never Idle before its end and has emitted one event a step. -/
theorem runSteps_of_full_trace {k n : Nat} {s u : State} (h : runSteps n s = .next u) (hk : k < n)
    (hfull : u.trace.length = s.trace.length + n) :
    ∃ v, runSteps k s = .next v ∧ v.phase ≠ [] ∧ v.trace.length = s.trace.length + k := by
  obtain ⟨m, rfl⟩ : ∃ m, n = k + (m + 1) := ⟨n - k - 1, by omega⟩
  obtain ⟨v, hv, hrest⟩ := runSteps_add_next h
  obtain ⟨v', hstep, hlast⟩ := runSteps_succ_next hrest
  obtain ⟨evs, hlen, htrace, _, hidle⟩ := eachStepEmitsAtMostOneEvent v v' hstep
  have hbefore := runSteps_trace_length_le hv
  have hafter := runSteps_trace_length_le hlast
  rw [htrace, List.length_append] at hafter
  refine ⟨v, hv, fun hp => ?_, by omega⟩
  rw [hidle hp, List.length_nil] at hafter
  omega

/-- Settles O24: the sixteen steps of the transaction emit sixteen events. -/
theorem transactionSuspendsUntilTheLastHold : Obligations.TransactionSuspendsUntilTheLastHold := by
  intro i s t k hready h hk
  obtain ⟨t', u, writes, ht, hrun, hwrites, hu⟩ := exec_sendsWord hready i
  obtain rfl := Host.Outcome.next.inj (h.symm.trans ht)
  have hstart : t = startWords [encode i] s := by
    rw [exec_eq_sendWord, sendWord_ready hready.idle hready.configured] at h
    exact (Host.Outcome.next.inj h).symm
  have htrace : t.trace = s.trace := by simp [hstart]
  have hsuspended : Suspended t := fun _ => by simp [hstart]
  have hfull : u.trace.length = t.trace.length + 16 := by
    rw [hu, htrace]
    simp [hwrites.length_eq, pinPhaseEvents, strobeEvents]
  obtain ⟨v, hv, hp, hlen⟩ := runSteps_of_full_trace hrun hk hfull
  exact ⟨v, hv, hp, runSteps_induction (fun _ _ => step_suspended) hsuspended hv hp, htrace ▸ hlen⟩

/-! ### Every call returns -/

/-- A bound on the steps that a task takes: a binding is no longer than its calls (R77), a pin phase no longer than its
writes (R66), and each has one step more for the case that nothing is left of it. -/
def Task.stepsLeft : Task → Nat
  | .bindPins j => 2 * j.toOpen.length + j.toSet.length + 1
  | .pins _ left => left.length + 1
  | .write _ _ => 1
  | .hold => 1
  | .markConfigured => 1

/-- A bound on the steps of some tasks. -/
def stepsLeft (ts : List Task) : Nat := (ts.map Task.stepsLeft).sum

@[simp] theorem stepsLeft_nil : stepsLeft [] = 0 := rfl

@[simp] theorem stepsLeft_cons (t : Task) (ts : List Task) : stepsLeft (t :: ts) = t.stepsLeft + stepsLeft ts := rfl

theorem stepsLeft_afterPin_le (w : Word) (left : List Role) (ts : List Task) :
    stepsLeft (afterPin w left ts) ≤ left.length + 1 + stepsLeft ts := by
  cases left with
  | nil => exact Nat.le_add_left _ _
  | cons r rest => exact le_rfl

/-- R77, R78: binding that goes on from `j` has at most the calls of `j` and the tasks `ts` ahead. -/
theorem stepsLeft_bindGoesOn_le (stop : Bool) (j : BindJob) (ts : List Task) (s : State) :
    stepsLeft (bindGoesOn stop j ts s).phase ≤ (Task.bindPins j).stepsLeft + stepsLeft ts := by
  unfold bindGoesOn
  split_ifs
  · simp
  · simp
  · exact le_rfl

/-- R77, R78: binding with no call left goes on with the tasks `ts` or ends. -/
theorem stepsLeft_bindGoesOn_of_done {j : BindJob} (h : enabledCalls j = []) (stop : Bool) (ts : List Task)
    (s : State) : stepsLeft (bindGoesOn stop j ts s).phase ≤ stepsLeft ts := by
  cases hf : j.failed <;> simp [bindGoesOn, h, hf]

/-- R22, R72: running a task leaves fewer steps. -/
theorem stepsLeft_runTask_lt {k : Choice} {t : Task} {ts : List Task} {s u : State}
    (h : runTask k t ts s = .next u) : stepsLeft u.phase < stepsLeft (t :: ts) := by
  rw [stepsLeft_cons]
  rcases runTask_cases h with ⟨j, rfl, hdone, rfl⟩ | ⟨j, c, rfl, hc, _, rfl⟩ | ⟨w, rfl, rfl⟩ |
    ⟨w, r, before, after, rfl, _, rfl⟩ | ⟨r, v, rfl, _, rfl⟩ | ⟨rfl, _, rfl⟩ | ⟨rfl, rfl⟩
  · have := stepsLeft_bindGoesOn_of_done hdone k.stop ts s
    simp only [Task.stepsLeft]
    omega
  · refine (stepsLeft_bindGoesOn_le _ _ _ _).trans_lt ?_
    have := answeredJob_shrinks hc
    simp only [Task.stepsLeft]
    omega
  · simp [Task.stepsLeft]
  · rw [continueWith_phase]
    refine (stepsLeft_afterPin_le _ _ _).trans_lt ?_
    simp only [Task.stepsLeft, List.length_append, List.length_cons]
    omega
  all_goals simp [Task.stepsLeft]

/-- R112: while every call out returns and the host waits, a running call makes a step. -/
theorem step_of_running {s : State} {t : Task} {ts : List Task} (hp : s.phase = t :: ts) (hhang : s.hang = none)
    (hwaits : presentsEarly s = false) : ∃ k u, step s = .next u ∧ runTask k t ts s = .next u := by
  have hstep := step_running hp hwaits
  cases hr : runTask (Config.choiceAt s.choices) t ts s with
  | next u => exact ⟨_, u, hstep.trans hr, hr⟩
  | fault f => simp [runTask_fault hr] at hhang
  | refused r => exact absurd hr (runTask_ne_refused _ _ _ _ _)

/-- R72, R112: a running call returns. -/
theorem running_returns {s : State} (hp : s.phase ≠ []) (hhang : s.hang = none) (hwaits : presentsEarly s = false) :
    ∃ n u, runSteps n s = .next u ∧ u.phase = [] ∧ u.answer ≠ none ∧ u.program = s.program := by
  induction hleft : stepsLeft s.phase using Nat.strong_induction_on generalizing s with
  | _ left ih =>
    obtain ⟨t, ts, hp⟩ := List.exists_cons_of_ne_nil hp
    obtain ⟨k, v, hstep, hr⟩ := step_of_running hp hhang hwaits
    obtain ⟨hprogram, hvhang⟩ := runTask_host hr
    rcases runTask_goesOnOrReturns hr with ⟨hrun, _⟩ | ⟨hidle, hanswer⟩
    · have hfewer : stepsLeft v.phase < left := by
        rw [← hleft, hp]
        exact stepsLeft_runTask_lt hr
      obtain ⟨n, u, hn, hidle, hanswer, hrest⟩ :=
        ih _ hfewer hrun (hvhang hhang) ((presentsEarly_congr hprogram).trans hwaits) rfl
      exact ⟨n + 1, u, by rw [runSteps_succ hstep, hn], hidle, hanswer, hrest.trans hprogram⟩
    · exact ⟨1, v, runSteps_succ hstep 0, hidle, hanswer, hprogram⟩

/-- Settles O54: an Idle block is the end of a run of no steps. -/
theorem everyRunningCallReturns : Obligations.EveryRunningCallReturns := by
  intro s hhang hwaits
  by_cases hp : s.phase = []
  · exact ⟨0, s, rfl, absurd hp, rfl⟩
  · obtain ⟨n, u, hrun, hidle, hanswer, hprogram⟩ := running_returns hp hhang hwaits
    exact ⟨n, u, hrun, fun _ => ⟨hidle, hanswer⟩, hprogram⟩

end Sys2Proof.Machine
end

section
/-! PROOFS (42_controller_operations.md R76, R77 (d); 70_reset_and_hazards.md R128). What the host's calls do on an
Unconfigured block: every call but `init` and an encoder function tells the host so and changes nothing else. -/
namespace Sys2Proof.Machine

/-- R76, R102: any call but `init` and an encoder function, in Unconfigured and Idle, is the silent no-op. -/
theorem execCall_eq_silentNoOp {c : Call} {s : State} (hc : s.configured = false) (hp : s.phase = [])
    (hinit : isInit c = false) (hencode : ∀ e, c ≠ .encode e) :
    execCall c s = .next (silentNoOp .notConfigured s) := by
  cases c with
  | init ids gpio => cases hinit
  | encode e => exact absurd rfl (hencode e)
  | send bits =>
    rw [execCall_send_eq_send]
    exact whenConfigured_unconfigured hp hc _
  | _ => exact whenConfigured_unconfigured hp hc _

/-- Settles O26: the two helpers test the mode as the operations do. -/
theorem operationsInUnconfiguredDoNothing : Obligations.OperationsInUnconfiguredDoNothing :=
  fun _ _ hc hp hinit hencode => ⟨execCall_eq_silentNoOp hc hp hinit hencode, whenConfigured_unconfigured hp hc _,
    whenConfigured_unconfigured hp hc _⟩

/-- R77: `init` accepted by an Unconfigured and Idle block has its binding and its bring-up ahead. -/
theorem execCall_init {s : State} (hc : s.configured = false) (hp : s.phase = []) (ids : PerRole PinId)
    (gpio : PerRole BindAnswer) : execCall (.init ids gpio) s =
      .next { s with phase := .bindPins (newJob ids gpio) :: bringUp s.cfg, answer := none } := by
  simp [execCall, opInit, whenIdle_idle hp, hc]

/-- R77 (d): `init` presented to a Configured and Idle block is refused. -/
theorem execCall_init_configured {s : State} (hc : s.configured = true) (hp : s.phase = []) (ids : PerRole PinId)
    (gpio : PerRole BindAnswer) : execCall (.init ids gpio) s = .refused .initWhileConfigured := by
  simp [execCall, opInit, whenIdle_idle hp, hc]

/-- Settles O27: an Unconfigured block accepts `init`. -/
theorem initIsRefusedExactlyInConfigured : Obligations.InitIsRefusedExactlyInConfigured := by
  intro ids gpio s hp
  cases hc : s.configured with
  | true => simp [execCall_init_configured hc hp]
  | false => simp [execCall_init hc hp]

/-! ### A host that never calls `init` -/

/-- R27, R128: nothing has happened to the block, and no `init` is among the requests to come. -/
structure NeverStarted (s : State) : Prop where
  noInit : ∀ q ∈ s.program, isInit q.call = false
  trace : s.trace = []
  cfg : s.cfg = Cfg.reset
  configured : s.configured = false
  bind : s.bind = everyRole none
  idle : s.phase = []

/-- R76, R128: a call but `init`, accepted by a block that was never started, leaves it so. -/
theorem NeverStarted.execCall {c : Call} {s t : State} (h : NeverStarted s) (hinit : isInit c = false)
    (ht : execCall c s = .next t) : NeverStarted t := by
  obtain ⟨noInit, trace, cfg, configured, bind, idle⟩ := h
  rcases execCall_cases idle ht with
    ⟨_, _, rfl, _⟩ | ⟨hc, _⟩ | ⟨_, rfl, _⟩ | ⟨_, _, rfl⟩ | ⟨_, _, _, rfl⟩
  · cases hinit
  · cases configured.symm.trans hc
  all_goals exact ⟨noInit, trace, cfg, configured, bind, idle⟩

/-- R128: every step of a block that was never started leaves it so. -/
theorem NeverStarted.step {s t : State} (h : NeverStarted s) (ht : step s = .next t) : NeverStarted t := by
  rcases stepWith_cases ht with
    ⟨_, _, rfl⟩ | ⟨q, rest, _, hq, hc⟩ | ⟨_, _, _, hrun, _⟩ | ⟨_, _, hrun, _⟩
  · exact h
  · obtain ⟨hinit, hrest⟩ := List.forall_mem_cons.mp (hq ▸ h.noInit)
    have hnext : NeverStarted { s with program := rest } := { h with noInit := hrest }
    exact hnext.execCall hinit hc
  · exact absurd h.idle hrun
  · cases h.idle.symm.trans hrun

/-- Settles O51: a block that has just been reset was never started, and every step leaves it so. -/
theorem withoutInitNothingEverHappens : Obligations.WithoutInitNothingEverHappens := by
  intro program hang n s hprogram hrun
  have hfresh : NeverStarted (freshBlock program hang) := ⟨hprogram, rfl, rfl, rfl, rfl, rfl⟩
  obtain ⟨_, htrace, hcfg, hc, hbind, hidle⟩ :=
    runSteps_induction (fun _ _ => NeverStarted.step) hfresh hrun
  exact ⟨htrace, hcfg, hc, hbind, hidle⟩

end Sys2Proof.Machine
end

section
/-! PROOFS (42_controller_operations.md R81 to R95; 60_exceptions.md R104). What each operation but `init` sends in
Configured: `execCall_sendsWords` says it once for all of them; then the clamps of the position of the cursor. -/
namespace Sys2Proof.Machine

/-! ### What transactions leave behind -/

/-- R74: one transaction makes thirteen writes and three holds. -/
theorem counts_transaction {w : Word} {writes : List Event} (hwrites : writes.Perm (pinPhaseEvents w)) :
    writeCount (writes ++ strobeEvents) = 13 ∧ holdCount (writes ++ strobeEvents) = 3 ∧
      (writes ++ strobeEvents).length = 16 := by
  have hperm := hwrites.append_right strobeEvents
  exact ⟨hperm.countP_eq _, hperm.countP_eq _, hperm.length_eq⟩

/-- R74: the counts of transactions one after another. -/
theorem counts_of_busEvents {ws : List Word} {evs : List Event} (h : BusEvents ws evs) :
    writeCount evs = 13 * ws.length ∧ holdCount evs = 3 * ws.length ∧ evs.length = 16 * ws.length := by
  induction h with
  | nil => exact ⟨rfl, rfl, rfl⟩
  | cons hwrites _ ih =>
    obtain ⟨hw, hh, hl⟩ := counts_transaction hwrites
    obtain ⟨iw, ih, il⟩ := ih
    rw [writeCount_append, holdCount_append, List.length_append, List.length_cons]
    omega

/-! ### The operations -/

/-- R51: the operations but `init`. -/
def isOperation : Call → Bool
  | .init _ _ => false
  | .send _ => false
  | .encode _ => false
  | _ => true

/-- An operation is none of the other three calls of a host. -/
theorem isOperation_spec {c : Call} (h : isOperation c = true) :
    sendsWords c = true ∧ (∀ bits, c ≠ .send bits) ∧ isInit c = false ∧ ∀ e, c ≠ .encode e := by
  cases c with
  | init _ _ | send _ | encode _ => cases h
  | _ => simp [sendsWords, isInit]

/-- R50, R81 to R95: an operation but `init`, in Configured, writes its flag and transmits its words. -/
theorem execCall_sendsWords {s : State} (hready : Ready s) {c : Call} (hop : isOperation c = true) :
    SendsWords s (cfgAfterCall s.cfg c) (callWordNumbers s.cfg c) (execCall c s) := by
  obtain ⟨hc, hp, hhang, hwaits⟩ := hready
  obtain ⟨hs, hb, _⟩ := isOperation_spec hop
  have hwords := acceptedWords_eq s.cfg c
  have hlen : (acceptedWords s.cfg c).length = (callWordNumbers s.cfg c).length := by simp [hwords]
  obtain ⟨evs, choices', hevs, hrun⟩ :=
    startWords_runs (acceptedWords s.cfg c) { s with cfg := acceptedCfg s.cfg c } hhang hwaits
  obtain ⟨hwrites, hholds, hlength⟩ := counts_of_busEvents hevs
  rw [hlen] at hwrites hholds hlength hrun
  refine ⟨_, _, evs, execCall_operation hp hc hs hb, hrun, ?_, hwrites, hholds, hlength, ?_⟩
  · rw [transmitted_of_busEvents hevs, hwords, List.map_map]
    rfl
  · rw [acceptedCfg_eq_cfgAfterCall]
    rfl

/-- R76, R102: an operation but `init`, in Unconfigured, is the silent no-op. -/
theorem execCall_operation_unconfigured {s : State} (hc : s.configured = false) (hp : s.phase = []) {c : Call}
    (hop : isOperation c = true) : execCall c s = .next (silentNoOp .notConfigured s) := by
  obtain ⟨_, _, hinit, hencode⟩ := isOperation_spec hop
  exact execCall_eq_silentNoOp hc hp hinit hencode

/-- R50, R76, R81 to R95: what an operation but `init` does in either mode. -/
theorem execCall_operation_either {s : State} {c : Call} (hop : isOperation c = true) :
    (Ready s → SendsWords s (cfgAfterCall s.cfg c) (callWordNumbers s.cfg c) (execCall c s)) ∧
    (s.configured = false → s.phase = [] → execCall c s = .next { s with answer := some (report .notConfigured) }) :=
  ⟨fun hready => execCall_sendsWords hready hop, fun hc hp => execCall_operation_unconfigured hc hp hop⟩

/-- Settles O36: the words of `write`, which writes no flag. -/
theorem writeSendsEachCodeInOrder : Obligations.WriteSendsEachCodeInOrder := fun _ text hready =>
  execCall_sendsWords hready (c := .write text) rfl

/-- Settles O37: the words of `writeLine`, which do not depend on the flags. -/
theorem writeLineEndsAtAddressForty : Obligations.WriteLineEndsAtAddressForty := fun _ text hready =>
  execCall_sendsWords hready (c := .writeLine text) rfl

/-- Settles O38: each toggle is an operation whose one word is the on/off-control word of the flags it leaves. -/
theorem displayTogglesWriteOneFlagAndSend : Obligations.DisplayTogglesWriteOneFlagAndSend := fun _ =>
  ⟨execCall_operation_either (c := .turnDisplayOn) rfl, execCall_operation_either (c := .turnDisplayOff) rfl,
    execCall_operation_either (c := .turnCursorOn) rfl, execCall_operation_either (c := .turnCursorOff) rfl,
    execCall_operation_either (c := .startCursorBlinking) rfl, execCall_operation_either (c := .stopCursorBlinking) rfl⟩

/-- Settles O39: each toggle is an operation whose one word is the function-set word of the flags it leaves. -/
theorem textTogglesWriteOneFlagAndSend : Obligations.TextTogglesWriteOneFlagAndSend := by
  intro s toggles
  have hwidth (hinv : BlockInv s) : { s.cfg with bitWidth := true } = s.cfg := by rw [← hinv.eightBit]
  exact ⟨execCall_operation_either (c := .switchTo8BitMode) rfl, hwidth,
    execCall_operation_either (c := .switchToDoubleLines) rfl,
    execCall_operation_either (c := .switchToSingleLines) rfl,
    execCall_operation_either (c := .switchTo5x8Font) rfl, execCall_operation_either (c := .switchTo5x10Font) rfl⟩

/-- Settles O32: the mode is tested in front of `Send` and in it, to the same effect. -/
theorem clearDisplaySendsOneWord : Obligations.ClearDisplaySendsOneWord := by
  intro s
  refine ⟨fun hready => ?_, (execCall_operation_either rfl).2⟩
  have hsend : execCall .clearDisplay s = sendWord (BitVec.ofNat 10 0x001) s := whenConfigured_sendWord _ s
  rw [hsend]
  exact sendWord_sendsWord hready 0x001

/-! ### The position of the cursor -/

/-- R82: setting the cursor is `Send` of the word of the position. -/
theorem execCall_setCursorPosition (row column : Nat) (s : State) :
    execCall (.setCursorPosition row column) s = sendWord (cursorWord s.cfg row column) s :=
  whenConfigured_sendWord _ s

/-- R82: the number of the word of a position is 128 above the address. -/
theorem cursorWordNumber_eq (cfg : Cfg) (row column : Nat) :
    cursorWordNumber cfg row column = 0x080 + (40 * (if cfg.lineCount then min row 1 else 0) + min column 40) :=
  Nat.add_assoc _ _ _

/-- Settles O34: the word of the position by number; its address is at most 80 after the clamps. -/
theorem setCursorPositionSendsTheClampedAddress : Obligations.SetCursorPositionSendsTheClampedAddress := by
  intro s row column hready
  constructor
  · rw [execCall_setCursorPosition, cursorWord_eq, cursorWordNumber_eq]
    exact sendWord_sendsWord hready _
  · split <;> omega

/-- R82: a position acts by what its row and its column are clamped to. -/
theorem execCall_setCursorPosition_congr {s : State} {row row' column column' : Nat}
    (hrow : clampRow s.cfg row = clampRow s.cfg row') (hcolumn : clampColumn column = clampColumn column') :
    execCall (.setCursorPosition row column) s = execCall (.setCursorPosition row' column') s := by
  simp only [execCall_setCursorPosition, cursorWord, cursorAddress, hrow, hcolumn]

/-- R82: every row above 1 is clamped to what row 1 is clamped to. -/
theorem clampRow_of_gt (cfg : Cfg) {row : Nat} (h : 1 < row) : clampRow cfg row = clampRow cfg 1 := by
  cases hl : cfg.lineCount <;> simp [clampRow, rowMax, hl, h.le]

/-- R82: in single-line mode every row is forced to row 0. -/
theorem clampRow_of_single {cfg : Cfg} (h : cfg.lineCount = false) (row : Nat) : clampRow cfg row = clampRow cfg 0 := by
  simp [clampRow, h]

/-- R82: every column above 40 is clamped to column 40. -/
theorem clampColumn_of_gt {column : Nat} (h : 40 < column) : clampColumn column = clampColumn 40 := by
  simp [clampColumn, colMax, h.le]

/-- Settles O35: the two positions of each clause are clamped to the same row and column. -/
theorem cursorClampLaw : Obligations.CursorClampLaw := fun s row _ =>
  ⟨fun hrow => execCall_setCursorPosition_congr (clampRow_of_gt s.cfg hrow) rfl,
    fun hcolumn => execCall_setCursorPosition_congr rfl (clampColumn_of_gt hcolumn),
    fun hsingle => execCall_setCursorPosition_congr (clampRow_of_single hsingle row) rfl⟩

end Sys2Proof.Machine
end

section
/-! PROOFS (42_controller_operations.md R77 (e), R78; 93_implementation_defined.md U11, U14). The binding of `init` as a
list of calls, each of which may come next when it comes: what the job and the state are after the calls, which lists
these are, and that under some open choices the model makes any of them. -/
namespace Sys2Proof.Machine

/-! ### One answered call -/

/-- A call leaves the identifiers of the `init` it belongs to. -/
@[simp] theorem answeredJob_ids (j : BindJob) (c : BindCall) : (answeredJob j c).ids = j.ids := by
  cases c with
  | openPin r | setOutput r => cases hg : j.gpio.get r <;> simp [answeredJob, hg]

/-- A call leaves the answers that the GPIO collaborator will give. -/
@[simp] theorem answeredJob_gpio (j : BindJob) (c : BindCall) : (answeredJob j c).gpio = j.gpio := by
  cases c with
  | openPin r | setOutput r => cases hg : j.gpio.get r <;> simp [answeredJob, hg]

@[simp] theorem answeredJob_openPin_toOpen (j : BindJob) (r : Role) :
    (answeredJob j (.openPin r)).toOpen = j.toOpen.erase r := by
  cases hg : j.gpio.get r <;> simp [answeredJob, hg]

@[simp] theorem answeredJob_setOutput_toOpen (j : BindJob) (r : Role) :
    (answeredJob j (.setOutput r)).toOpen = j.toOpen := by
  cases hg : j.gpio.get r <;> simp [answeredJob, hg]

/-- R77 (e), log 27: a role is to be set to output unless its `Open` has failed. -/
@[simp] theorem answeredJob_openPin_toSet (j : BindJob) (r : Role) : (answeredJob j (.openPin r)).toSet =
    if j.gpio.get r = .openFails then j.toSet else j.toSet ++ [r] := by
  cases hg : j.gpio.get r <;> simp [answeredJob, hg]

@[simp] theorem answeredJob_setOutput_toSet (j : BindJob) (r : Role) :
    (answeredJob j (.setOutput r)).toSet = j.toSet.erase r := by
  cases hg : j.gpio.get r <;> simp [answeredJob, hg]

/-! ### The job and the state after some calls -/

/-- R77: the job after some calls have been answered. -/
def jobAfter (j : BindJob) (calls : List BindCall) : BindJob := calls.foldl answeredJob j

@[simp] theorem jobAfter_nil (j : BindJob) : jobAfter j [] = j := rfl

@[simp] theorem jobAfter_cons (j : BindJob) (c : BindCall) (calls : List BindCall) :
    jobAfter j (c :: calls) = jobAfter (answeredJob j c) calls := rfl

/-- R77: the state after some calls of the job `j` have returned, the phase left aside. -/
def afterCalls (j : BindJob) (calls : List BindCall) (s : State) : State :=
  { s with
    bind := calls.foldl (fun b c => bindAfter j c b) s.bind
    trace := s.trace ++ calls.map (bindEvent j)
    choices := s.choices + calls.length }

/-- A call is the same event at every point of a binding. -/
theorem bindEvent_answeredJob (j : BindJob) (c : BindCall) : bindEvent (answeredJob j c) = bindEvent j := by
  funext d
  cases d <;> simp [bindEvent]

/-- A call binds the same handle at every point of a binding. -/
theorem bindAfter_answeredJob (j : BindJob) (c : BindCall) : bindAfter (answeredJob j c) = bindAfter j := by
  funext d b
  cases d <;> simp [bindAfter]

/-- R77: the state after one call, as the sequencer writes it. -/
theorem afterCalls_singleton (j : BindJob) (c : BindCall) {s : State} (hhang : s.hang = none) :
    tookChoice { record (bindEvent j c) s with bind := bindAfter j c s.bind } = afterCalls j [c] s := by
  simp [afterCalls, tookChoice, record, hhang]

theorem afterCalls_cons (j : BindJob) (c : BindCall) (calls : List BindCall) (s : State) :
    afterCalls j (c :: calls) s = afterCalls (answeredJob j c) calls (afterCalls j [c] s) := by
  simp [afterCalls, bindEvent_answeredJob, bindAfter_answeredJob, Nat.add_assoc, Nat.add_comm 1]

/-! ### Where binding goes on -/

/-- R78, U11: binding ends at a job with nothing left to call, or at a failed one where the free value says so. -/
def BindingEnds (stop : Bool) (j : BindJob) : Prop := enabledCalls j = [] ∨ (j.failed = true ∧ stop = true)

theorem bindGoesOn_of_failed {stop : Bool} {j : BindJob} (hf : j.failed = true) (hend : BindingEnds stop j)
    (ts : List Task) (s : State) : bindGoesOn stop j ts s = failInit s := by
  rcases hend with hdone | ⟨_, rfl⟩
  · simp [bindGoesOn, hf, hdone]
  · simp [bindGoesOn, hf]

theorem bindGoesOn_of_done {stop : Bool} {j : BindJob} (hf : j.failed = false) (hend : BindingEnds stop j)
    (ts : List Task) (s : State) : bindGoesOn stop j ts s = continueWith ts s := by
  rcases hend with hdone | ⟨hfailed, _⟩
  · simp [bindGoesOn, hf, hdone]
  · cases hf.symm.trans hfailed

theorem bindGoesOn_of_not_ends {stop : Bool} {j : BindJob} (hend : ¬ BindingEnds stop j) (ts : List Task) (s : State) :
    bindGoesOn stop j ts s = { s with phase := .bindPins j :: ts } := by
  obtain ⟨hne, hgoes⟩ := not_or.mp hend
  have hempty : (enabledCalls j).isEmpty = false := by simpa using hne
  have hfail : (j.failed && stop) = false := by simpa using hgoes
  simp [bindGoesOn, hempty, hfail]

/-- The phase that a binding call leaves does not depend on the phase before it. -/
theorem bindGoesOn_set_phase (stop : Bool) (j : BindJob) (ts phase : List Task) (s : State) :
    bindGoesOn stop j ts { s with phase := phase } = bindGoesOn stop j ts s := by
  unfold bindGoesOn
  split_ifs
  · rfl
  · cases ts <;> rfl
  · rfl

/-- R77: making the calls after the first, in the phase that the first has left, is making them all. -/
theorem bindGoesOn_afterCalls_cons (stop : Bool) (j : BindJob) (c : BindCall) (calls : List BindCall)
    (ts phase : List Task) (s : State) :
    bindGoesOn stop (jobAfter (answeredJob j c) calls) ts
        (afterCalls (answeredJob j c) calls { afterCalls j [c] s with phase := phase }) =
      bindGoesOn stop (jobAfter j (c :: calls)) ts (afterCalls j (c :: calls) s) := by
  rw [afterCalls_cons j c calls s]
  exact bindGoesOn_set_phase stop (jobAfter (answeredJob j c) calls) ts phase
    (afterCalls (answeredJob j c) calls (afterCalls j [c] s))

/-! ### Lists of binding calls -/

/-- R77 (e): each of the calls may come next when it comes, the binding being at the job `j`. -/
def EnabledInTurn (j : BindJob) (calls : List BindCall) : Prop :=
  ∀ before c after, calls = before ++ c :: after → c ∈ enabledCalls (jobAfter j before)

theorem EnabledInTurn.head {j : BindJob} {c : BindCall} {calls : List BindCall} (h : EnabledInTurn j (c :: calls)) :
    c ∈ enabledCalls j := h [] c calls rfl

theorem EnabledInTurn.tail {j : BindJob} {c : BindCall} {calls : List BindCall} (h : EnabledInTurn j (c :: calls)) :
    EnabledInTurn (answeredJob j c) calls := fun before d after he => h (c :: before) d after (congrArg (c :: ·) he)

theorem EnabledInTurn.nil (j : BindJob) : EnabledInTurn j [] := fun _ _ _ h => by simp at h

theorem EnabledInTurn.cons {j : BindJob} {c : BindCall} {calls : List BindCall} (hc : c ∈ enabledCalls j)
    (h : EnabledInTurn (answeredJob j c) calls) : EnabledInTurn j (c :: calls) := by
  intro before d after he
  cases before with
  | nil => exact (List.cons.inj he).1 ▸ hc
  | cons b before =>
    obtain ⟨rfl, htail⟩ := List.cons.inj he
    exact h before d after htail

theorem openPin_mem_enabledCalls {j : BindJob} {r : Role} : .openPin r ∈ enabledCalls j ↔ r ∈ j.toOpen := by
  simp [enabledCalls]

theorem setOutput_mem_enabledCalls {j : BindJob} {r : Role} : .setOutput r ∈ enabledCalls j ↔ r ∈ j.toSet := by
  simp [enabledCalls]

/-- R77 (e): a role is still to be opened until its `Open`. -/
theorem mem_toOpen_answeredJob {j : BindJob} {r : Role} (h : r ∈ j.toOpen) {c : BindCall} (hc : c ≠ .openPin r) :
    r ∈ (answeredJob j c).toOpen := by
  cases c with
  | openPin q =>
    have hne : r ≠ q := fun he => hc (he ▸ rfl)
    simpa [List.mem_erase_of_ne hne] using h
  | setOutput q => simpa using h

/-- R77 (e): an opened role is still to be set to output until its `SetOutput`. -/
theorem mem_toSet_answeredJob {j : BindJob} {r : Role} (h : r ∈ j.toSet) {c : BindCall} (hc : c ≠ .setOutput r) :
    r ∈ (answeredJob j c).toSet := by
  cases c with
  | openPin q =>
    rw [answeredJob_openPin_toSet]
    split
    · exact h
    · exact List.mem_append_left [q] h
  | setOutput q =>
    have hne : r ≠ q := fun he => hc (he ▸ rfl)
    simpa [List.mem_erase_of_ne hne] using h

theorem mem_toOpen_jobAfter {r : Role} {calls : List BindCall} (hc : .openPin r ∉ calls) {j : BindJob}
    (h : r ∈ j.toOpen) : r ∈ (jobAfter j calls).toOpen :=
  List.foldlRecOn (motive := fun j => r ∈ j.toOpen) calls answeredJob h fun _ hj _ hmem =>
    mem_toOpen_answeredJob hj fun he => hc (he ▸ hmem)

theorem mem_toSet_jobAfter {r : Role} {calls : List BindCall} (hc : .setOutput r ∉ calls) {j : BindJob}
    (h : r ∈ j.toSet ∨ (.openPin r ∈ calls ∧ j.gpio.get r ≠ .openFails)) : r ∈ (jobAfter j calls).toSet := by
  induction calls generalizing j with
  | nil => simpa using h
  | cons c calls ih =>
    obtain ⟨hne, hrest⟩ := List.ne_and_not_mem_of_not_mem_cons hc
    refine ih hrest ?_
    rcases h with h | ⟨hopen, hg⟩
    · exact .inl (mem_toSet_answeredJob h hne.symm)
    · rcases List.mem_cons.mp hopen with rfl | hopen
      · exact .inl (by simp [hg])
      · exact .inr ⟨hopen, by rwa [answeredJob_gpio]⟩

/-- R77 (e): the lists of calls that the spec allows are made of calls that may come next when they come. -/
theorem enabledInTurn_of_allowed {ids : PerRole PinId} {gpio : PerRole BindAnswer} {calls : List BindCall}
    (h : AllowedBinding gpio calls) : EnabledInTurn (newJob ids gpio) calls := by
  rintro before c after rfl
  obtain ⟨hnodup, hopened⟩ := h
  have hfresh : c ∉ before := fun hc => (List.nodup_append.mp hnodup).2.2 c hc c (by simp) rfl
  cases c with
  | openPin r => exact openPin_mem_enabledCalls.mpr (mem_toOpen_jobAfter hfresh (mem_allRoles r))
  | setOutput r => exact setOutput_mem_enabledCalls.mpr (mem_toSet_jobAfter hfresh (.inr (hopened before r after rfl)))

/-! ### Making the calls -/

/-- R77 (e), U11, U14: calls that may come next when they come are made, in this order, under some open choices, which
leave open where binding goes on after the last of them. -/
theorem runWith_binding (stop : Bool) (ts : List Task) (calls : List BindCall) : ∀ (j : BindJob) (s : State),
    EnabledInTurn j calls → calls ≠ [] → s.phase = .bindPins j :: ts → s.hang = none → presentsEarly s = false →
    ∃ ks, ks.length = calls.length ∧
      runWith ks s = .next (bindGoesOn stop (jobAfter j calls) ts (afterCalls j calls s)) := by
  induction calls with
  | nil => exact fun _ _ _ hne => absurd rfl hne
  | cons c calls ih =>
    intro j s hturn _ hp hhang hwaits
    cases calls with
    | nil =>
      obtain ⟨k, _, hstep⟩ := stepWith_binding hturn.head hp hhang hwaits stop
      rw [afterCalls_singleton j c hhang] at hstep
      exact ⟨[k], rfl, by simp [runWith, hstep]⟩
    | cons d calls =>
      obtain ⟨k, _, hstep⟩ := stepWith_binding hturn.head hp hhang hwaits false
      have hmore : ¬ BindingEnds false (answeredJob j c) := by
        simp [BindingEnds, List.ne_nil_of_mem hturn.tail.head]
      rw [afterCalls_singleton j c hhang, bindGoesOn_of_not_ends hmore] at hstep
      obtain ⟨ks, hlen, hrun⟩ := ih (answeredJob j c)
        { afterCalls j [c] s with phase := .bindPins (answeredJob j c) :: ts } hturn.tail (by simp) rfl hhang hwaits
      refine ⟨k :: ks, by simp [hlen], ?_⟩
      rw [runWith, hstep, ← bindGoesOn_afterCalls_cons]
      exact hrun

/-- Settles O30: an allowed list is made of calls that may come next when they come. -/
theorem everyBindingOrderIsPossible : Obligations.EveryBindingOrderIsPossible := by
  intro ids gpio calls s ts hp hhang hwaits hallowed
  by_cases hne : calls = []
  · exact ⟨[], s, by simp [hne], rfl, by simp [hne]⟩
  · obtain ⟨ks, hlen, hrun⟩ :=
      runWith_binding false ts calls _ s (enabledInTurn_of_allowed hallowed) hne hp hhang hwaits
    exact ⟨ks, _, hlen, hrun, by simp [afterCalls]⟩

/-- R78: a call that the GPIO collaborator fails makes the job fail. -/
theorem answeredJob_failed_of_fails {j : BindJob} {c : BindCall} (h : bindCallFails j.gpio c = true) :
    (answeredJob j c).failed = true := by
  cases c with
  | openPin r =>
    have hg : j.gpio.get r = .openFails := by simpa [bindCallFails] using h
    simp [answeredJob, hg]
  | setOutput r =>
    have hg : j.gpio.get r = .setOutputFails := by simpa [bindCallFails] using h
    simp [answeredJob, hg]

theorem jobAfter_failed {j : BindJob} {calls : List BindCall}
    (h : j.failed = true ∨ ∃ c ∈ calls, bindCallFails j.gpio c = true) : (jobAfter j calls).failed = true := by
  induction calls generalizing j with
  | nil => simpa using h
  | cons c calls ih =>
    refine ih ?_
    rw [answeredJob_gpio]
    rcases h with hf | ⟨d, hd, hfails⟩
    · exact .inl (answeredJob_failed hf c)
    · rcases List.mem_cons.mp hd with rfl | hd
      · exact .inl (answeredJob_failed_of_fails hfails)
      · exact .inr ⟨d, hd, hfails⟩

/-- Settles O31: after a failed call the free value says whether binding ends; while it says no, a call that may come
next keeps the binding going. -/
theorem failedBindingMayEndOrGoOn : Obligations.FailedBindingMayEndOrGoOn := by
  intro ids gpio calls s ts hp hhang hwaits hallowed hfails
  have hne : calls ≠ [] := by
    rintro rfl
    simp at hfails
  have hruns (stop : Bool) := runWith_binding stop ts calls _ s (enabledInTurn_of_allowed hallowed) hne hp hhang hwaits
  constructor
  · obtain ⟨ks, hlen, hrun⟩ := hruns true
    have hf : (jobAfter (newJob ids gpio) calls).failed = true := jobAfter_failed (.inr hfails)
    rw [bindGoesOn_of_failed hf (.inr ⟨hf, rfl⟩)] at hrun
    exact ⟨ks, _, hlen, hrun, rfl⟩
  · intro c hnext
    obtain ⟨ks, hlen, hrun⟩ := hruns false
    have hc : c ∈ enabledCalls (jobAfter (newJob ids gpio) calls) :=
      enabledInTurn_of_allowed hnext calls c [] rfl
    rw [bindGoesOn_of_not_ends (by simp [BindingEnds, List.ne_nil_of_mem hc])] at hrun
    exact ⟨ks, _, _, hlen, hrun, rfl, hc, rfl⟩

end Sys2Proof.Machine
end

section
/-! PROOFS (42_controller_operations.md R77 to R80, R103, R120, R130). `init` from start to end: its binding in whatever
order the calls come, the bring-up of a successful one, the failure of any other; then what the two helpers send. -/
namespace Sys2Proof.Machine

/-! ### The binding of a running `init` -/

/-- R77, R78: a binding that has calls to make ends after some calls, each of which may come next when it comes. -/
theorem runSteps_binding (ts : List Task) (j : BindJob) : ∀ s : State, enabledCalls j ≠ [] →
    s.phase = .bindPins j :: ts → s.hang = none → presentsEarly s = false →
    ∃ calls stop, calls ≠ [] ∧ EnabledInTurn j calls ∧ BindingEnds stop (jobAfter j calls) ∧
      runSteps calls.length s = .next (bindGoesOn stop (jobAfter j calls) ts (afterCalls j calls s)) := by
  induction hleft : (Task.bindPins j).stepsLeft using Nat.strong_induction_on generalizing j with
  | _ left ih =>
    intro s hne hp hhang hwaits
    obtain ⟨c, hc, hstep⟩ := step_binding hp hhang hwaits hne
    rw [afterCalls_singleton j c hhang] at hstep
    by_cases hend : BindingEnds (Config.choiceAt s.choices).stop (answeredJob j c)
    · exact ⟨[c], _, by simp, .cons hc (.nil _), hend, runSteps_succ hstep 0⟩
    · rw [bindGoesOn_of_not_ends hend] at hstep
      have hfewer : (Task.bindPins (answeredJob j c)).stepsLeft < left := by
        rw [← hleft]
        exact Nat.succ_lt_succ (answeredJob_shrinks hc)
      obtain ⟨calls, stop, _, hturn, hlast, hrun⟩ := ih _ hfewer (answeredJob j c) rfl
        { afterCalls j [c] s with phase := .bindPins (answeredJob j c) :: ts }
        (fun he => hend (.inl he)) rfl hhang hwaits
      refine ⟨c :: calls, stop, by simp, .cons hc hturn, hlast, ?_⟩
      rw [List.length_cons, runSteps_succ hstep, ← bindGoesOn_afterCalls_cons]
      exact hrun

/-- The calls that a job with no failing role makes: both for a role not yet opened, one for an opened one. -/
def pendingCalls (j : BindJob) : List BindCall :=
  j.toOpen.flatMap (fun r => [.openPin r, .setOutput r]) ++ j.toSet.map .setOutput

/-- R77: a call that succeeds is one of the pending calls, and the others are still pending. -/
theorem pendingCalls_perm {j : BindJob} (hall : allSucceed j.gpio) {c : BindCall} (hc : c ∈ enabledCalls j) :
    (pendingCalls j).Perm (c :: pendingCalls (answeredJob j c)) := by
  cases c with
  | openPin r =>
    obtain ⟨handle, hg⟩ := hall r
    have hopen := (List.perm_cons_erase (openPin_mem_enabledCalls.mp hc)).flatMap_right
      (fun r => [BindCall.openPin r, .setOutput r])
    simp only [pendingCalls, answeredJob, hg, List.map_append, ← List.append_assoc]
    refine (hopen.append_right _).trans (.cons _ ?_)
    exact (List.perm_append_singleton _ _).symm
  | setOutput r =>
    obtain ⟨handle, hg⟩ := hall r
    have hset := (List.perm_cons_erase (setOutput_mem_enabledCalls.mp hc)).map BindCall.setOutput
    simp only [pendingCalls, answeredJob, hg]
    exact (hset.append_left _).trans List.perm_middle

/-- R77: with no failing role, the calls made and the calls still pending are those pending at the start. -/
theorem EnabledInTurn.perm_pendingCalls {calls : List BindCall} : ∀ {j : BindJob}, EnabledInTurn j calls →
    allSucceed j.gpio → (pendingCalls j).Perm (calls ++ pendingCalls (jobAfter j calls)) := by
  induction calls with
  | nil => exact fun _ _ => .refl _
  | cons c calls ih =>
    intro j hturn hall
    exact (pendingCalls_perm hall hturn.head).trans (.cons c (ih hturn.tail (by rwa [answeredJob_gpio])))

/-- R77: with no failing role the order of the calls is all that is open. -/
theorem pendingCalls_newJob (ids : PerRole PinId) (gpio : PerRole BindAnswer) :
    (pendingCalls (newJob ids gpio)).Perm (allRoles.map .openPin ++ allRoles.map .setOutput) := by
  have h : (allRoles.flatMap fun r => [BindCall.openPin r, .setOutput r]).Perm
      (allRoles.map .openPin ++ allRoles.map .setOutput) := by decide
  simpa [pendingCalls, newJob] using h

theorem pendingCalls_of_done {j : BindJob} (h : enabledCalls j = []) : pendingCalls j = [] := by
  simp only [enabledCalls, List.append_eq_nil_iff, List.map_eq_nil_iff] at h
  simp [pendingCalls, h]

/-- R77: a call that succeeds does not make the job fail. -/
theorem answeredJob_not_failed {j : BindJob} (hf : j.failed = false) (hall : allSucceed j.gpio) (c : BindCall) :
    (answeredJob j c).failed = false := by
  cases c with
  | openPin r | setOutput r =>
    obtain ⟨handle, hg⟩ := hall r
    simp [answeredJob, hg, hf]

/-- R77: with no failing role no job fails. -/
theorem jobAfter_not_failed {j : BindJob} (hf : j.failed = false) (hall : allSucceed j.gpio) (calls : List BindCall) :
    (jobAfter j calls).failed = false := by
  have hboth : (jobAfter j calls).failed = false ∧ allSucceed (jobAfter j calls).gpio :=
    List.foldlRecOn (motive := fun j => j.failed = false ∧ allSucceed j.gpio) calls answeredJob ⟨hf, hall⟩
      fun _ ⟨hf, hall⟩ c _ => ⟨answeredJob_not_failed hf hall c, by rwa [answeredJob_gpio]⟩
  exact hboth.1

/-- R77 (e): only its `Open` makes a role one to be set to output. -/
theorem mem_toSet_of_answeredJob {j : BindJob} {r : Role} {c : BindCall} (h : r ∈ (answeredJob j c).toSet) :
    r ∈ j.toSet ∨ .openPin r = c := by
  cases c with
  | openPin q =>
    rw [answeredJob_openPin_toSet] at h
    split at h
    · exact .inl h
    · simpa using h
  | setOutput q => exact .inl (List.mem_of_mem_erase (by simpa using h))

/-- R77 (e): a role to be set to output has been opened. -/
theorem openPin_mem_of_mem_toSet {r : Role} {calls : List BindCall} : ∀ {j : BindJob},
    r ∈ (jobAfter j calls).toSet → r ∈ j.toSet ∨ .openPin r ∈ calls := by
  induction calls with
  | nil => exact .inl
  | cons c calls ih =>
    intro j h
    rcases ih h with h | hmem
    · rcases mem_toSet_of_answeredJob h with h | rfl
      · exact .inl h
      · exact .inr List.mem_cons_self
    · exact .inr (List.mem_cons_of_mem _ hmem)

/-- R77: the `SetOutput` of a role stores the handle of its `Open`, and no other call changes it. -/
theorem get_bindAfter {j : BindJob} {r : Role} {handle : Handle} (hg : j.gpio.get r = .bound handle) {c : BindCall}
    {b : PerRole (Option Handle)} (h : .setOutput r = c ∨ b.get r = some handle) :
    (bindAfter j c b).get r = some handle := by
  rcases h with rfl | h
  · simp [bindAfter, hg]
  · cases c with
    | openPin q => exact h
    | setOutput q =>
      by_cases hq : r = q
      · subst hq
        simp [bindAfter, hg]
      · cases hgq : j.gpio.get q <;> simp [bindAfter, hgq, PerRole.get_set_ne _ _ hq, h]

/-- R77: a role that has been set to output with success is bound after the calls. -/
theorem get_afterCalls_bind {r : Role} {handle : Handle} {calls : List BindCall} : ∀ {j : BindJob} {s : State},
    j.gpio.get r = .bound handle → .setOutput r ∈ calls ∨ s.bind.get r = some handle →
    (afterCalls j calls s).bind.get r = some handle := by
  induction calls with
  | nil => exact fun _ h => by simpa [afterCalls] using h
  | cons c calls ih =>
    intro j s hg h
    rw [afterCalls_cons]
    refine ih (by rwa [answeredJob_gpio]) ?_
    rw [List.mem_cons, or_assoc] at h
    rcases h with rfl | h | h
    · exact .inr (get_bindAfter hg (.inl rfl))
    · exact .inl h
    · exact .inr (get_bindAfter hg (.inr h))

/-! ### A successful `init` -/

/-- R77 step 1: with no failing role the binding makes every call once, opens each role before it sets it, and goes on
with the rest of `init`. -/
theorem runSteps_binding_of_allSucceed {ids : PerRole PinId} {gpio : PerRole BindAnswer} (hall : allSucceed gpio)
    {ts : List Task} {s : State} (hp : s.phase = .bindPins (newJob ids gpio) :: ts) (hhang : s.hang = none)
    (hwaits : presentsEarly s = false) :
    ∃ calls, EnabledInTurn (newJob ids gpio) calls ∧
      calls.Perm (allRoles.map .openPin ++ allRoles.map .setOutput) ∧
      runSteps 22 s = .next (continueWith ts (afterCalls (newJob ids gpio) calls s)) := by
  obtain ⟨calls, stop, _, hturn, hend, hrun⟩ :=
    runSteps_binding ts (newJob ids gpio) s (by simp [enabledCalls, newJob, allRoles]) hp hhang hwaits
  have hf := jobAfter_not_failed (j := newJob ids gpio) rfl hall calls
  have hdone : enabledCalls (jobAfter (newJob ids gpio) calls) = [] := hend.resolve_right (by simp [hf])
  have hperm := hturn.perm_pendingCalls hall
  rw [pendingCalls_of_done hdone, List.append_nil] at hperm
  have hcalls := hperm.symm.trans (pendingCalls_newJob ids gpio)
  refine ⟨calls, hturn, hcalls, ?_⟩
  rw [hcalls.length_eq, bindGoesOn_of_done hf hend] at hrun
  exact hrun

/-- R77 step 3: marking the block configured starts the words of the bring-up. -/
theorem step_markConfigured {cfg : Cfg} {s : State} (hp : s.phase = .markConfigured :: transactions (bringUpWords cfg))
    (hanswer : s.answer = none) (hwaits : presentsEarly s = false) :
    step s = .next (startWords (bringUpWords cfg) { s with configured := true }) := by
  rw [step_running hp hwaits, runTask_markConfigured, bringUpWords, startWords_cons, ← hanswer]
  rfl

/-- R77 steps 2 to 4: Enable is driven low, the block is Configured, and the five words are transmitted. -/
theorem runSteps_bringUp {cfg : Cfg} {s : State} (hp : s.phase = bringUp cfg) (hanswer : s.answer = none)
    (hhang : s.hang = none) (hwaits : presentsEarly s = false) :
    ∃ evs choices', BusEvents (bringUpWords cfg) evs ∧ runSteps 82 s = .next (returned (report .ok)
      { s with
        configured := true, pin := pinsAfter (s.pin.set .e .low) evs,
        trace := s.trace ++ (.write .e false :: evs), choices := choices' }) := by
  have hlow : step s = .next { s with
      pin := s.pin.set .e .low, trace := s.trace ++ [.write .e false],
      phase := .markConfigured :: transactions (bringUpWords cfg) } := by
    rw [step_running hp hwaits, runTask_write _ _ _ _ (by simp [hhang])]
    simp [continueWith, setPin, record, hhang, levelOf]
  have hmark := step_markConfigured (cfg := cfg) (s := { s with
      pin := s.pin.set .e .low, trace := s.trace ++ [.write .e false],
      phase := .markConfigured :: transactions (bringUpWords cfg) }) rfl hanswer hwaits
  obtain ⟨evs, choices', hevs, hrun⟩ := startWords_runs (bringUpWords cfg)
    { s with configured := true, pin := s.pin.set .e .low, trace := s.trace ++ [.write .e false] } hhang hwaits
  refine ⟨evs, choices', hevs, ?_⟩
  rw [runSteps_succ hlow, runSteps_succ hmark]
  simp only [List.append_assoc] at hrun
  exact hrun

/-- R67: the levels after transactions one after another are those of the last word. -/
theorem pinsAfter_of_busEvents {ws : List Word} {evs : List Event} (h : BusEvents ws evs) (p : PerRole Level) :
    pinsAfter p evs = ws.foldl (fun _ w => levelsOfWord w) p := by
  induction h generalizing p with
  | nil => rfl
  | cons hwrites _ ih => rw [pinsAfter_append, pinsAfter_transaction hwrites, ih, List.foldl_cons]

/-- R77 (e): as events, each role is opened before it is set to output. -/
theorem EnabledInTurn.openPin_mem {ids : PerRole PinId} {gpio : PerRole BindAnswer} {calls : List BindCall}
    (h : EnabledInTurn (newJob ids gpio) calls) {before after : List Event} {r : Role}
    (he : calls.map (bindEvent (newJob ids gpio)) = before ++ .setOutput r :: after) :
    .openPin r (ids.get r) ∈ before := by
  obtain ⟨first, rest, rfl, rfl, hrest⟩ := List.map_eq_append_iff.mp he
  obtain ⟨c, last, rfl, hc, -⟩ := List.map_eq_cons_iff.mp hrest
  cases c with
  | openPin q => cases hc
  | setOutput q =>
    cases hc
    have hset := setOutput_mem_enabledCalls.mp (h first (.setOutput r) last rfl)
    have hopened : .openPin r ∈ first := (openPin_mem_of_mem_toSet hset).resolve_left (by simp [newJob])
    exact List.mem_map.mpr ⟨_, hopened, rfl⟩

/-- Settles O28: the binding calls as events, then the bring-up; the words are those of the reset configuration. -/
theorem initBringsUpTheDisplay : Obligations.InitBringsUpTheDisplay := by
  intro ids gpio s hinv hc hp hhang hwaits hall
  obtain ⟨calls, hturn, hcalls, hbinding⟩ := runSteps_binding_of_allSucceed (ids := ids) hall
    (s := { s with phase := .bindPins (newJob ids gpio) :: bringUp s.cfg, answer := none }) rfl hhang hwaits
  obtain ⟨evs, choices', hevs, hbringUp⟩ := runSteps_bringUp (cfg := s.cfg)
    (s := { afterCalls (newJob ids gpio) calls s with phase := bringUp s.cfg, answer := none }) rfl rfl hhang hwaits
  have hwords : bringUpWords s.cfg = [0x001, 0x038, 0x00E, 0x006, 0x080].map (BitVec.ofNat 10) := by
    rw [hinv.defaults hc]
    rfl
  rw [hwords] at hevs
  obtain ⟨hwrites, hholds, _⟩ := counts_of_busEvents hevs
  have hrun := (runSteps_add hbinding 82).trans hbringUp
  refine ⟨_, _, calls.map (bindEvent (newJob ids gpio)), evs, execCall_init hc hp ids gpio, hrun, ?_,
    fun before r after => hturn.openPin_mem, ?_, hwrites, hholds, ?_, ?_⟩
  · exact hcalls.map (bindEvent (newJob ids gpio))
  · rw [transmitted_of_busEvents hevs]
    rfl
  · intro r handle hg
    have hset : BindCall.setOutput r ∈ calls := hcalls.mem_iff.mpr (by simp [mem_allRoles])
    exact get_afterCalls_bind (j := newJob ids gpio) (s := s) hg (.inl hset)
  · rw [pinsAfter_of_busEvents hevs]
    simp [afterCalls, returned]

/-! ### A failed `init` -/

/-- R78: once nothing is left to call, the job has failed or every role has answered with success. -/
theorem failed_or_allSucceed_of_done {ids : PerRole PinId} {gpio : PerRole BindAnswer} {calls : List BindCall}
    (hdone : enabledCalls (jobAfter (newJob ids gpio) calls) = []) :
    (jobAfter (newJob ids gpio) calls).failed = true ∨ allSucceed gpio := by
  rw [or_iff_not_imp_left]
  intro hf r
  have hsucceeds : ∀ c ∈ calls, bindCallFails gpio c ≠ true := fun c hc hfails =>
    hf (jobAfter_failed (.inr ⟨c, hc, hfails⟩))
  have hopened : .openPin r ∈ calls := by
    by_contra hc
    have := openPin_mem_enabledCalls.mpr (mem_toOpen_jobAfter hc (j := newJob ids gpio) (mem_allRoles r))
    simp [hdone] at this
  have hopens : gpio.get r ≠ .openFails := by simpa [bindCallFails] using hsucceeds _ hopened
  have hset : .setOutput r ∈ calls := by
    by_contra hc
    have := setOutput_mem_enabledCalls.mpr (mem_toSet_jobAfter hc (j := newJob ids gpio) (.inr ⟨hopened, hopens⟩))
    simp [hdone] at this
  have hsets : gpio.get r ≠ .setOutputFails := by simpa [bindCallFails] using hsucceeds _ hset
  cases hg : gpio.get r with
  | bound handle => exact ⟨handle, rfl⟩
  | openFails => exact absurd hg hopens
  | setOutputFails => exact absurd hg hsets

/-- R77: a job makes no more calls than it had left. -/
theorem EnabledInTurn.length_le {calls : List BindCall} : ∀ {j : BindJob}, EnabledInTurn j calls →
    calls.length < (Task.bindPins j).stepsLeft := by
  induction calls with
  | nil => exact fun _ => Nat.succ_pos _
  | cons c calls ih =>
    intro j hturn
    exact (Nat.succ_le_of_lt (ih hturn.tail)).trans_lt (Nat.succ_lt_succ (answeredJob_shrinks hturn.head))

/-- Settles O29: a binding with a failing role ends failed; nothing was bound before it. -/
theorem failedInitLeavesTheBlockAsItWas : Obligations.FailedInitLeavesTheBlockAsItWas := by
  intro ids gpio s hinv hc hp hhang hwaits hfails
  obtain ⟨calls, stop, hne, hturn, hend, hrun⟩ := runSteps_binding (bringUp s.cfg) (newJob ids gpio)
    { s with phase := .bindPins (newJob ids gpio) :: bringUp s.cfg, answer := none }
    (by simp [enabledCalls, newJob, allRoles]) rfl hhang hwaits
  have hf : (jobAfter (newJob ids gpio) calls).failed = true := by
    rcases hend with hdone | ⟨hf, _⟩
    · exact (failed_or_allSucceed_of_done hdone).resolve_right hfails
    · exact hf
  rw [bindGoesOn_of_failed hf hend] at hrun
  obtain ⟨hbind, _⟩ := hinv.untouched hc hp
  refine ⟨_, calls.length, _, calls.map (bindEvent (newJob ids gpio)), execCall_init hc hp ids gpio,
    Nat.le_of_lt_succ hturn.length_le, hrun, by simp, List.length_pos_of_ne_nil hne, ?_, ?_⟩
  · simp only [List.forall_mem_map]
    rintro (r | r) _
    · exact .inl ⟨r, rfl⟩
    · exact .inr ⟨r, rfl⟩
  · simp [failInit, returned, afterCalls, hbind, hp]

/-! ### The two helpers -/

/-- R79: the function-set word of a helper. -/
theorem applyTextConfig_sendsWord {s : State} (hready : Ready s) :
    SendsWord s (textWordNumber s.cfg) (applyTextConfig s) := by
  rw [applyTextConfig_eq, textConfigWord_eq]
  exact sendWord_sendsWord hready _

/-- R80: the on/off-control word of a helper. -/
theorem applyDisplayConfig_sendsWord {s : State} (hready : Ready s) :
    SendsWord s (displayWordNumber s.cfg) (applyDisplayConfig s) := by
  rw [applyDisplayConfig_eq, displayConfigWord_eq]
  exact sendWord_sendsWord hready _

/-- R16, R79: with the width flag at 1 the function-set word is one of four. -/
theorem textWordNumber_mem {cfg : Cfg} (h : cfg.bitWidth = true) :
    textWordNumber cfg ∈ [0x030, 0x034, 0x038, 0x03C] := by
  rw [textWordNumber, h]
  cases cfg.lineCount <;> cases cfg.font <;> decide

/-- R24, R77: from reset a successful `init` and further calls leave the block Configured and Idle, with the flags of
the calls. -/
theorem freshSession_runs (ids : PerRole PinId) {gpio : PerRole BindAnswer} (hall : allSucceed gpio)
    {calls : List Call} (hcalls : ∀ c ∈ calls, isInit c = false ∧ c.wf = true) :
    ∃ n u, runSteps n (freshBlock ((Call.init ids gpio :: calls).map waiting) none) = .next u ∧
      u.configured = true ∧ u.phase = [] ∧ u.cfg = sessionCfg Cfg.reset calls := by
  obtain ⟨t, u, _, _, haccept, hinit, _, _, _, _, _, _, hu⟩ :=
    initBringsUpTheDisplay ids gpio (freshBlock (calls.map waiting) none) (invariantHoldsAfterReset _ _) rfl rfl rfl
      (presentsEarly_waiting rfl) hall
  have hstep : step (freshBlock ((Call.init ids gpio :: calls).map waiting) none) = .next t :=
    (stepWith_presents rfl rfl _).trans haccept
  obtain ⟨n, v, hsession, hsent, hidle, _, hcfg⟩ :=
    session_runs calls u (by rw [hu]) (by rw [hu]) (by rw [hu]; rfl) (by rw [hu]; rfl) hcalls
  refine ⟨104 + n + 1, v, ?_, hsent.configured.trans (by rw [hu]), hidle, by rw [hcfg, hu]; rfl⟩
  rw [runSteps_succ hstep, runSteps_add hinit, hsession]

/-- R85 to R90: the toggles that write the three display flags. -/
def displayToggles (d c b : Bool) : List Call :=
  [if d then .turnDisplayOn else .turnDisplayOff, if c then .turnCursorOn else .turnCursorOff,
    if b then .startCursorBlinking else .stopCursorBlinking]

theorem displayToggles_wf (d c b : Bool) : ∀ call ∈ displayToggles d c b, isInit call = false ∧ call.wf = true := by
  cases d <;> cases c <;> cases b <;> decide

/-- R80: the toggles write the three flags whatever they were. -/
theorem displayWordNumber_displayToggles (cfg : Cfg) (d c b : Bool) :
    displayWordNumber (sessionCfg cfg (displayToggles d c b)) = 8 + 4 * d.toNat + 2 * c.toNat + b.toNat := by
  cases d <;> cases c <;> cases b <;> rfl

/-- Settles O33: each helper sends the word of its flags; the three toggles after an `init` reach every on/off-control
word. -/
theorem helpersSendTheConfigurationWords : Obligations.HelpersSendTheConfigurationWords := by
  refine ⟨fun s => ⟨fun hready => ⟨applyTextConfig_sendsWord hready, applyDisplayConfig_sendsWord hready⟩,
    fun hc hp => ⟨whenConfigured_unconfigured hp hc _, whenConfigured_unconfigured hp hc _⟩,
    fun hinv => textWordNumber_mem hinv.eightBit⟩, fun d c b => ?_, rfl, rfl⟩
  have hall : allSucceed (everyRole (.bound 0)) := fun r => ⟨0, everyRole_get _ r⟩
  obtain ⟨n, u, hrun, hc, hidle, hcfg⟩ := freshSession_runs (everyRole 0) hall (displayToggles_wf d c b)
  exact ⟨_, n, u, hrun, hc, hidle, by rw [hcfg, displayWordNumber_displayToggles]⟩

end Sys2Proof.Machine
end

section
/-! PROOFS (60_exceptions.md R100 to R102, R106, R108, R115; 70_reset_and_hazards.md R121). What stops a step:
`execCall_goesOn_or_refused` says once what a presented call answers in any state, and `step_cases` what a step is. -/
namespace Sys2Proof.Machine

/-! ### What the host is told -/

/-- R65: executing an instruction in Configured starts its word and answers nothing yet. -/
theorem exec_ready {s : State} (hready : Ready s) (i : Instr) : exec i s = .next (startWords [encode i] s) := by
  rw [exec_eq_sendWord, sendWord_ready hready.idle hready.configured]

/-- Settles O21: `report` is the opaque `STRICT_RESULT` applied; the mode is tested before the length, and a transaction
that has ended answers ok. -/
theorem conditionsAreToldExactlyWhenResultsAreStrict : Obligations.ConditionsAreToldExactlyWhenResultsAreStrict := by
  refine ⟨fun _ => ⟨rfl, rfl⟩, instructionsInUnconfiguredDoNothing,
    fun _ _ => execCall_eq_silentNoOp, fun bits s hc hp hlen => ?_, fun i s hready => ?_⟩
  · rw [execCall_send_eq_send]
    exact send_malformed hp hc hlen
  · obtain ⟨t, u, _, ht, hrun, _, hu⟩ := exec_sendsWord hready i
    obtain rfl := Host.Outcome.next.inj ((exec_ready hready i).symm.trans ht)
    exact ⟨_, u, exec_ready hready i, rfl, hrun, by rw [hu]; rfl⟩

/-! ### What stops a step -/

/-- R121: while a call runs every call but an encoder function is refused. -/
theorem execCall_running_refused {c : Call} {s : State} (hp : s.phase ≠ []) (hencode : ∀ e, c ≠ .encode e) :
    execCall c s = .refused .operationWhileRunning := by
  cases c with
  | init ids gpio => exact whenIdle_running hp _
  | encode e => exact absurd rfl (hencode e)
  | send bits =>
    rw [execCall_send_eq_send]
    exact whenConfigured_running hp _
  | _ => exact whenConfigured_running hp _

/-- R76, R101: an Idle block accepts or passes over every call but `init` and an encoder function. -/
theorem execCall_idle_goesOn {c : Call} {s : State} (hp : s.phase = []) (hinit : isInit c = false) (hwf : c.wf = true)
    (hencode : ∀ e, c ≠ .encode e) : ∃ t, execCall c s = .next t := by
  cases hc : s.configured with
  | true =>
    rcases execCall_accepts hp hc hinit hwf with h | ⟨_, _, _, _, h⟩
    · exact ⟨_, h⟩
    · exact ⟨_, h⟩
  | false => exact ⟨_, execCall_eq_silentNoOp hc hp hinit hencode⟩

/-- R53, R77 (d), R121: a presented call goes on to a next state, or is refused on one of three grounds. -/
theorem execCall_goesOn_or_refused (c : Call) (s : State) :
    (∃ t, execCall c s = .next t) ∨
    (execCall c s = .refused .operationWhileRunning ∧ s.phase ≠ [] ∧ ∀ e, c ≠ .encode e) ∨
    (execCall c s = .refused .initWhileConfigured ∧ s.phase = [] ∧ isInit c = true ∧ s.configured = true) ∨
    (execCall c s = .refused .encoderArgumentOutOfRange ∧ c.wf = false) := by
  cases c with
  | encode e =>
    cases hwf : e.wf with
    | true => exact .inl ⟨_, execCall_encode_of_wf hwf s⟩
    | false => exact .inr (.inr (.inr ⟨(execCall_encode_refused_iff e s).mpr hwf, hwf⟩))
  | init ids gpio =>
    by_cases hp : s.phase = []
    · cases hc : s.configured with
      | true => exact .inr (.inr (.inl ⟨execCall_init_configured hc hp ids gpio, hp, rfl, rfl⟩))
      | false => exact .inl ⟨_, execCall_init hc hp ids gpio⟩
    · exact .inr (.inl ⟨execCall_running_refused hp (by simp), hp, by simp⟩)
  | _ =>
    by_cases hp : s.phase = []
    · exact .inl (execCall_idle_goesOn hp rfl rfl (by simp))
    · exact .inr (.inl ⟨execCall_running_refused hp (by simp), hp, by simp⟩)

/-- No call stops with a fault: it makes no call out in the step that accepts it (log 2). -/
theorem execCall_ne_fault (c : Call) (s : State) (f : Fault) : execCall c s ≠ .fault f := by
  rcases execCall_goesOn_or_refused c s with ⟨_, h⟩ | ⟨h, _⟩ | ⟨h, _⟩ | ⟨h, _⟩ <;> simp [h]

/-- R22, R24: a step leaves an Idle block with nothing presented as it is, executes the presented call, or runs the
first task of the running one. -/
theorem step_cases (s : State) :
    step s = .next s ∨
    (∃ q rest, s.program = q :: rest ∧ (s.phase = [] ∨ (s.phase ≠ [] ∧ q.waits = false)) ∧
      step s = execCall q.call { s with program := rest }) ∨
    (∃ k t ts, s.phase = t :: ts ∧ step s = runTask k t ts s) := by
  cases hpresented : presented s with
  | some qr =>
    obtain ⟨hprogram, hp⟩ := presented_eq_some hpresented
    exact .inr (.inl ⟨_, _, hprogram, hp, stepWith_presented hpresented _⟩)
  | none =>
    rcases presented_eq_none hpresented with ⟨hp, hprogram⟩ | ⟨hp, hwaits⟩
    · exact .inl (stepWith_idle hp hprogram _)
    · obtain ⟨t, ts, hp⟩ := List.exists_cons_of_ne_nil hp
      exact .inr (.inr ⟨_, t, ts, hp, step_running hp hwaits⟩)

/-- R115: a step stops with a fault only while a call runs whose next call out never returns. -/
theorem step_fault {s : State} {f : Fault} (h : step s = .fault f) : s.phase ≠ [] ∧ s.hang = some 0 := by
  rcases step_cases s with hs | ⟨q, rest, _, _, hs⟩ | ⟨k, t, ts, hp, hs⟩
  · cases hs.symm.trans h
  · exact absurd (hs.symm.trans h) (execCall_ne_fault _ _ _)
  · exact ⟨by simp [hp], runTask_fault (hs.symm.trans h)⟩

/-- R66, R115: a pin phase is stuck in one of the writes it has left. -/
theorem runTask_pins_hangs (k : Choice) (w : Word) {left : List Role} (ts : List Task) {s : State}
    (h : s.hang = some 0) (hl : left ≠ []) :
    ∃ r, r ∈ left ∧ runTask k (.pins w left) ts s = .fault (.callNeverReturns (.write r (wordBit w r))) := by
  obtain ⟨r, before, after, hpick, he⟩ := pick_eq_some (k := k.pinWrite) hl
  exact ⟨r, by simp [he], by simp [runTask, pinStep, hpick, callOut_hangs h]⟩

/-- R77 (e), R115: a binding is stuck in one of the calls that are enabled. -/
theorem runTask_bindPins_hangs (k : Choice) {j : BindJob} (ts : List Task) {s : State}
    (h : s.hang = some 0) (hl : enabledCalls j ≠ []) :
    ∃ c, c ∈ enabledCalls j ∧ runTask k (.bindPins j) ts s = .fault (.callNeverReturns (bindEvent j c)) := by
  obtain ⟨c, before, after, hpick, he⟩ := pick_eq_some (k := k.bindCall) hl
  exact ⟨c, by simp [he], by simp [runTask, bindStep, hpick, callOut_hangs h]⟩

/-- Settles O52: the step of a running call is its first task, and each kind of task that makes a call out is stuck in
it. -/
theorem machineIsStuckOnlyInACallThatNeverReturns : Obligations.MachineIsStuckOnlyInACallThatNeverReturns := by
  refine ⟨fun _ _ => step_fault, fun s t ts hp hhang hwaits => ?_⟩
  rw [step_running hp hwaits]
  refine ⟨?_, ?_, ?_, ?_⟩
  · rintro r v rfl
    rw [runTask, callOut_hangs hhang]
  · rintro rfl
    rw [runTask, callOut_hangs hhang]
  · rintro w r rest rfl
    exact runTask_pins_hangs _ w ts hhang (List.cons_ne_nil r rest)
  · rintro j rfl henabled
    exact runTask_bindPins_hangs _ ts hhang henabled

/-- Settles O53: no task is refused, so the step executes a presented call, which is refused on three grounds only. -/
theorem stepsAreRefusedOnlyOutsideTheContract : Obligations.StepsAreRefusedOnlyOutsideTheContract := by
  intro s r h
  rcases step_cases s with hs | ⟨q, rest, hprogram, hpresented, hs⟩ | ⟨k, t, ts, _, hs⟩
  · cases hs.symm.trans h
  · refine ⟨q, rest, hprogram, ?_⟩
    have hcall := hs.symm.trans h
    rcases execCall_goesOn_or_refused q.call { s with program := rest } with
      ⟨_, hnext⟩ | ⟨hr, hp, hencode⟩ | ⟨hr, hp, hinit, hc⟩ | ⟨hr, hwf⟩
    · cases hnext.symm.trans hcall
    · obtain rfl := Host.Outcome.refused.inj (hr.symm.trans hcall)
      exact .inl ⟨rfl, hp, (hpresented.resolve_left hp).2, hencode⟩
    · obtain rfl := Host.Outcome.refused.inj (hr.symm.trans hcall)
      exact .inr (.inl ⟨rfl, hp, hinit, hc⟩)
    · obtain rfl := Host.Outcome.refused.inj (hr.symm.trans hcall)
      exact .inr (.inr ⟨rfl, hpresented.imp_right And.right, hwf⟩)
  · exact absurd (hs.symm.trans h) (runTask_ne_refused _ _ _ _ _)

end Sys2Proof.Machine
end

section
/-! PROOFS (70_reset_and_hazards.md R120, R121, R129, R130). The counts and the least time of a call, what a host has
transmitted when it starts from reset, and what it is told while a call runs. -/
namespace Sys2Proof.Machine

/-- Settles O40: each word of the call is one transaction of thirteen writes and three holds. -/
theorem callCountsAndLeastTime : Obligations.CallCountsAndLeastTime := by
  intro s c hready hinit hwf
  obtain ⟨t, u, haccept, hrun, hsent, hidle, _, _⟩ := execCall_runs hready hinit hwf
  obtain ⟨evs, hevs, htrace, _⟩ := hsent.events
  obtain ⟨hwrites, hholds, _⟩ := counts_of_busEvents hevs
  rw [List.length_map] at hwrites hholds
  exact ⟨t, u, evs, haccept, hrun, hidle, htrace, hwrites, hholds, by rw [leastTime, hholds]⟩

/-! ### From reset -/

/-- R69: what comes before the first write transmits nothing and leaves the levels as they are. -/
theorem transmitted_append_of_not_write {evs : List Event} (h : ∀ ev ∈ evs, isWrite ev = false) (p : PerRole Level)
    (fvs : List Event) : transmitted p (evs ++ fvs) = transmitted p fvs := by
  induction evs with
  | nil => rfl
  | cons ev evs ih =>
    obtain ⟨hev, hevs⟩ := List.forall_mem_cons.mp h
    have hquiet : ev ≠ .write .e true := by
      rintro rfl
      cases hev
    rw [List.cons_append, transmitted, if_neg hquiet, seeEvent_of_not_write hev, ih hevs]

/-- R77 (e): the calls of a binding write no pin. -/
theorem isWrite_of_mem_binding {ids : PerRole PinId} {ev : Event}
    (h : ev ∈ allRoles.map (fun r => Event.openPin r (ids.get r)) ++ allRoles.map Event.setOutput) :
    isWrite ev = false := by
  simp only [List.mem_append, List.mem_map] at h
  rcases h with ⟨r, _, rfl⟩ | ⟨r, _, rfl⟩ <;> rfl

/-- R77, R120: from reset a successful `init` transmits the five words of the bring-up; the block is then Configured and
Idle in front of the other calls of its host, and no flag has changed. -/
theorem freshInit_transmits (ids : PerRole PinId) {gpio : PerRole BindAnswer} (hall : allSucceed gpio)
    (calls : List Call) :
    ∃ n u, runSteps n (freshBlock ((Call.init ids gpio :: calls).map waiting) none) = .next u ∧
      u.configured = true ∧ u.phase = [] ∧ u.hang = none ∧ u.program = calls.map waiting ∧ u.cfg = Cfg.reset ∧
      transmitted (everyRole .unknown) u.trace = [0x001, 0x038, 0x00E, 0x006, 0x080].map asWord := by
  obtain ⟨t, u, bindings, evs, haccept, hrun, hbindings, _, hwords, _, _, _, hu⟩ :=
    initBringsUpTheDisplay ids gpio (freshBlock (calls.map waiting) none) (invariantHoldsAfterReset _ _) rfl rfl rfl
      (presentsEarly_waiting rfl) hall
  have hstep : step (freshBlock ((Call.init ids gpio :: calls).map waiting) none) = .next t :=
    (stepWith_presents rfl rfl _).trans haccept
  have htrace : u.trace = bindings ++ .write .e false :: evs := by rw [hu]; rfl
  have hquiet : ∀ ev ∈ bindings, isWrite ev = false := fun _ hev =>
    isWrite_of_mem_binding (hbindings.mem_iff.mp hev)
  refine ⟨105, u, (runSteps_succ hstep 104).trans hrun, ?_⟩
  refine ⟨by rw [hu], by rw [hu], by rw [hu]; rfl, by rw [hu]; rfl, by rw [hu]; rfl, ?_⟩
  rw [htrace, transmitted_append_of_not_write hquiet]
  exact hwords

/-- Settles O42: the session begins in the Configured and Idle block that `init` leaves. -/
theorem freshSessionTransmitsBringUpThenCalls : Obligations.FreshSessionTransmitsBringUpThenCalls := by
  intro ids gpio calls hall hcalls
  obtain ⟨m, u, hinit, hc, hidle, hhang, hprogram, hcfg, hbringUp⟩ := freshInit_transmits ids hall calls
  obtain ⟨n, v, evs, hsession, hidle', hdone, hc', _, hcfg', htrace, hwords⟩ :=
    sessionTransmitsTheConcatenation u calls hc hidle hhang hprogram hcalls
  refine ⟨m + n, v, (runSteps_add hinit n).trans hsession, hidle', hdone, hc', by rw [hcfg', hcfg], ?_⟩
  have hpin : u.pin = pinsAfter (everyRole .unknown) u.trace := (blockInv_of_run hinit).lastWritten
  rw [htrace, transmitted_append, hbringUp, ← hpin, hwords, hcfg, List.map_append]

/-! ### While a call runs -/

/-- R121: while a call runs every instruction is refused, as the word it sends is. -/
theorem exec_running_refused {s : State} (hp : s.phase ≠ []) (i : Instr) :
    exec i s = .refused .operationWhileRunning := by
  rw [exec_eq_sendWord, sendWord_running hp]

/-- Settles O25: a request that does not wait is presented to the running block, which refuses its call. -/
theorem callsWhileRunningAreRefused : Obligations.CallsWhileRunningAreRefused := by
  refine ⟨fun i _ hp => exec_running_refused hp i, fun _ _ => execCall_running_refused, ?_⟩
  intro s q rest hp hprogram hwaits hencode
  exact (stepWith_early hprogram hwaits _).trans (execCall_running_refused hp hencode)

end Sys2Proof.Machine
end
